-- ==== Sys2Proof/Word.lean ====
section
/-! DEFINITION. The words of the machine (00_scope R5, R6): all of them unsigned, bit 0 the least significant. -/

namespace Sys2Proof

/-- An 8-bit value: a general register, a timer, a memory cell (00_scope R5, `REG_WIDTH`). -/
abbrev Byte := BitVec 8

/-- A 16-bit field: an opcode, `pc`, `I`, `curOp`, `status.info` (00_scope R5, 10_state R20). -/
abbrev Word := BitVec 16

/-- A 12-bit address: the field `nnn`, a call-stack entry (00_scope R5, 10_state R26). -/
abbrev Addr := BitVec 12

/-- A 4-bit field of an opcode (30_encoding R91). -/
abbrev Nibble := BitVec 4

/-- The number of a general register, 0..15 (10_state R21). -/
abbrev Reg := Fin 16

/-- `VF`, the register that also serves as the flag (10_state R22). -/
abbrev VF : Reg := 15

/-- `V0`, the register `Bnnn` reads implicitly (10_state R21). -/
abbrev V0 : Reg := 0

end Sys2Proof
end

