-- ==== Sys2Proof/Config.lean ====
section
/-! DEFINITION. What an implementation fixes (00_scope R5, 10_state R39) and the one value the spec leaves free.
The values this hardware takes are `Sys2Proof.Machine.hardware` (Machine/Hardware.lean). -/

namespace Sys2Proof

/-- The named parameters of 00_scope R5 that an operation of the core depends on. `RESET_ZERO` and `FONT` are read by the
reset procedure; `TIMER_HZ` is the host's rate and no rule of the core depends on it (70_reset R379), so it is not here. -/
structure Params where
  /-- `STACK_DEPTH` (10_state R26, D13). -/
  stackDepth : Nat
  /-- `FONT`, one byte per sprite row, glyph `d` at `5*d` (20_memory R76, D19). -/
  font : List Byte
  /-- `SHIFT_WRITES_VY` (42_alu R196, D29). -/
  shiftWritesVy : Bool
  /-- `FLAG_LAST` (42_alu R181, D10). -/
  flagLast : Bool
  /-- `KEY_WAIT_PICK` (D17): which key `Fx0A` takes, given the lowest pressed key and the other pressed keys in
  rising order. -/
  keyWaitPick : Reg → List Reg → Reg
  /-- `RESET_ZERO` (D20): whether the reset values the source does not give are 0, or arbitrary. -/
  resetZero : Bool

namespace Config

/-- `MEM_SIZE` (00_scope R5). -/
def memSize : Nat := 4096
/-- `LOAD_ADDR`: the ROM's base and the pc at reset (00_scope R5, 10_state R38). -/
def loadAddr : Nat := 0x200
/-- `MAX_ROM` (00_scope R5, 70_reset R373). -/
def maxRom : Nat := memSize - loadAddr
/-- `FONT_BASE` (00_scope R5). -/
def fontBase : Nat := 0x000
/-- `GLYPH_SIZE` (00_scope R5). -/
def glyphSize : Nat := 5
/-- `NGLYPHS` (00_scope R5, D19). -/
def nGlyphs : Nat := 16

/-- DESIGN CHOICE (log 2): the byte that the `rnd` input carries at a draw for which the host has supplied none. The spec
gives it no law (10_state R34, D23: "every value 0..255 is possible"), so it has no body: the draws are numbered and
nothing is known of any of them. -/
opaque freeRandom : Nat → Byte

end Config

end Sys2Proof
end

