-- ==== Sys2Proof/Syntax.lean ====
section
/-! DEFINITION. The instructions (30_encoding R95), the classifier's kinds and descriptor (R96, R103, R104), and the rows
of the opcode table. Every operand has the width of its field (R91, R93), so every term of `Instr` is an instruction the
encoding admits (R98: "every bit not fixed by its pattern is an operand field"). -/

namespace Sys2Proof

/-- One constructor per row of spec/opcode_table.json, in the table's order. -/
inductive Instr where
  /-- `00E0` -/
  | cls
  /-- `00EE` -/
  | ret
  /-- `1nnn` -/
  | jp (nnn : Addr)
  /-- `2nnn` -/
  | call (nnn : Addr)
  /-- `3xnn` -/
  | seImm (x : Reg) (nn : Byte)
  /-- `4xnn` -/
  | sneImm (x : Reg) (nn : Byte)
  /-- `5xy0` -/
  | seReg (x y : Reg)
  /-- `6xnn` -/
  | ldImm (x : Reg) (nn : Byte)
  /-- `7xnn` -/
  | addImm (x : Reg) (nn : Byte)
  /-- `8xy0` -/
  | ldReg (x y : Reg)
  /-- `8xy1` -/
  | orReg (x y : Reg)
  /-- `8xy2` -/
  | andReg (x y : Reg)
  /-- `8xy3` -/
  | xorReg (x y : Reg)
  /-- `8xy4` -/
  | addReg (x y : Reg)
  /-- `8xy5` -/
  | sub (x y : Reg)
  /-- `8xy6` -/
  | shr (x y : Reg)
  /-- `8xy7` -/
  | subn (x y : Reg)
  /-- `8xyE` -/
  | shl (x y : Reg)
  /-- `9xy0` -/
  | sneReg (x y : Reg)
  /-- `Annn` -/
  | ldI (nnn : Addr)
  /-- `Bnnn` -/
  | jpV0 (nnn : Addr)
  /-- `Cxnn` -/
  | rnd (x : Reg) (nn : Byte)
  /-- `Dxyn` -/
  | drw (x y : Reg) (n : Nibble)
  /-- `Ex9E` -/
  | skp (x : Reg)
  /-- `ExA1` -/
  | sknp (x : Reg)
  /-- `Fx07` -/
  | ldVxDt (x : Reg)
  /-- `Fx0A` -/
  | ldVxK (x : Reg)
  /-- `Fx15` -/
  | ldDtVx (x : Reg)
  /-- `Fx18` -/
  | ldStVx (x : Reg)
  /-- `Fx1E` -/
  | addIVx (x : Reg)
  /-- `Fx29` -/
  | ldFVx (x : Reg)
  /-- `Fx33` -/
  | ldBVx (x : Reg)
  /-- `Fx55` -/
  | stRegs (x : Reg)
  /-- `Fx65` -/
  | ldRegs (x : Reg)
  deriving DecidableEq, Repr

/-- The classifier's closed enumeration of operation kinds (30_encoding R103, 40_dispatch R132). -/
inductive Kind where
  | unknown
  | cls | ret | jp | call | seImm | sneImm | seReg | ldImm | addImm
  | ldReg | orReg | andReg | xorReg | addReg | sub | shr | subn | shl
  | sneReg | ldI | jpV0 | rnd | drw | skp | sknp
  | ldVxDt | ldVxK | ldDtVx | ldStVx | addIVx | ldFVx | ldBVx | stRegs | ldRegs
  deriving DecidableEq, Repr

/-- The classifier's output: the kind and all six fields of 30_encoding R91, whatever the kind (R104; log 29). -/
structure Descriptor where
  kind : Kind
  /-- The family. -/
  f    : Nibble
  x    : Reg
  y    : Reg
  n    : Nibble
  nn   : Byte
  nnn  : Addr
  deriving DecidableEq, Repr

/-- A row of the opcode table: the instruction is selected when `(op & mask) = pattern` (30_encoding R95). -/
structure Row where
  kind    : Kind
  pattern : Word
  mask    : Word
  deriving DecidableEq, Repr

/-- The kind of an instruction (30_encoding R103). -/
def Instr.kind : Instr → Kind
  | .cls => .cls
  | .ret => .ret
  | .jp _ => .jp
  | .call _ => .call
  | .seImm _ _ => .seImm
  | .sneImm _ _ => .sneImm
  | .seReg _ _ => .seReg
  | .ldImm _ _ => .ldImm
  | .addImm _ _ => .addImm
  | .ldReg _ _ => .ldReg
  | .orReg _ _ => .orReg
  | .andReg _ _ => .andReg
  | .xorReg _ _ => .xorReg
  | .addReg _ _ => .addReg
  | .sub _ _ => .sub
  | .shr _ _ => .shr
  | .subn _ _ => .subn
  | .shl _ _ => .shl
  | .sneReg _ _ => .sneReg
  | .ldI _ => .ldI
  | .jpV0 _ => .jpV0
  | .rnd _ _ => .rnd
  | .drw _ _ _ => .drw
  | .skp _ => .skp
  | .sknp _ => .sknp
  | .ldVxDt _ => .ldVxDt
  | .ldVxK _ => .ldVxK
  | .ldDtVx _ => .ldDtVx
  | .ldStVx _ => .ldStVx
  | .addIVx _ => .addIVx
  | .ldFVx _ => .ldFVx
  | .ldBVx _ => .ldBVx
  | .stRegs _ => .stRegs
  | .ldRegs _ => .ldRegs

end Sys2Proof
end

