-- ==== Sys2Proof/WellFormed.lean ====
section
/-! DEFINITION. Checks on data that the types do not already carry. A term of `Instr` needs none: its operands have the
exact widths of their fields and an opcode has no ignored or should-be-zero bit (30_encoding R98). What can be ill formed
is a row of the opcode table, the record of parameters and the ROM image. -/

namespace Sys2Proof

/-- A row fixes only bits of its mask: a pattern bit outside the mask could match no word (30_encoding R95). -/
def Row.wellFormed (r : Row) : Bool :=
  r.pattern &&& r.mask == r.pattern

/-- Two rows select no word together: they differ in a bit that both fix (30_encoding R97). -/
def Row.disjoint (r q : Row) : Bool :=
  (r.pattern ^^^ q.pattern) &&& (r.mask &&& q.mask) != 0#16

/-- The font has 16 glyphs of 5 bytes (20_memory R76), and the depth of the stack fits the field that a StackOverflow
records it in (10_state R35, 60_exceptions R332). -/
def Params.wellFormed (p : Params) : Bool :=
  p.font.length == Config.nGlyphs * Config.glyphSize && decide (p.stackDepth < 65536)

/-- The ROM image fits from the load address to the end of memory (70_reset R373). An empty image and one of odd length
are legal. -/
def romWellFormed (rom : List Byte) : Bool :=
  decide (rom.length ≤ Config.maxRom)

end Sys2Proof
end

