-- ==== Sys2Proof/Decode.lean ====
section
/-! DEFINITION. The opcode table, the classifier, the decoder and the encoder (30_encoding). -/

namespace Sys2Proof

/-! ## Field extraction (30_encoding R91) -/

/-- `f = op[15:12]`, the family. -/
def fieldF (op : Word) : Nibble := op.extractLsb' 12 4
/-- `x = op[11:8]`. -/
def fieldX (op : Word) : Reg := (op.extractLsb' 8 4).toFin
/-- `y = op[7:4]`. -/
def fieldY (op : Word) : Reg := (op.extractLsb' 4 4).toFin
/-- `n = op[3:0]`. -/
def fieldN (op : Word) : Nibble := op.extractLsb' 0 4
/-- `nn = op[7:0]`. -/
def fieldNn (op : Word) : Byte := op.extractLsb' 0 8
/-- `nnn = op[11:0]`. -/
def fieldNnn (op : Word) : Addr := op.extractLsb' 0 12

/-! ## The opcode table (30_encoding R95) -/

/-- Kinds 1 to 7. -/
def rowsControl : List Row :=
  [⟨.cls, 0x00E0, 0xFFFF⟩, ⟨.ret, 0x00EE, 0xFFFF⟩, ⟨.jp, 0x1000, 0xF000⟩, ⟨.call, 0x2000, 0xF000⟩,
   ⟨.seImm, 0x3000, 0xF000⟩, ⟨.sneImm, 0x4000, 0xF000⟩, ⟨.seReg, 0x5000, 0xF00F⟩]

/-- Kinds 8 to 19. -/
def rowsAlu : List Row :=
  [⟨.ldImm, 0x6000, 0xF000⟩, ⟨.addImm, 0x7000, 0xF000⟩, ⟨.ldReg, 0x8000, 0xF00F⟩, ⟨.orReg, 0x8001, 0xF00F⟩,
   ⟨.andReg, 0x8002, 0xF00F⟩, ⟨.xorReg, 0x8003, 0xF00F⟩, ⟨.addReg, 0x8004, 0xF00F⟩, ⟨.sub, 0x8005, 0xF00F⟩,
   ⟨.shr, 0x8006, 0xF00F⟩, ⟨.subn, 0x8007, 0xF00F⟩, ⟨.shl, 0x800E, 0xF00F⟩, ⟨.sneReg, 0x9000, 0xF00F⟩]

/-- Kinds 20 to 34. -/
def rowsIndexed : List Row :=
  [⟨.ldI, 0xA000, 0xF000⟩, ⟨.jpV0, 0xB000, 0xF000⟩, ⟨.rnd, 0xC000, 0xF000⟩, ⟨.drw, 0xD000, 0xF000⟩,
   ⟨.skp, 0xE09E, 0xF0FF⟩, ⟨.sknp, 0xE0A1, 0xF0FF⟩, ⟨.ldVxDt, 0xF007, 0xF0FF⟩, ⟨.ldVxK, 0xF00A, 0xF0FF⟩,
   ⟨.ldDtVx, 0xF015, 0xF0FF⟩, ⟨.ldStVx, 0xF018, 0xF0FF⟩, ⟨.addIVx, 0xF01E, 0xF0FF⟩, ⟨.ldFVx, 0xF029, 0xF0FF⟩,
   ⟨.ldBVx, 0xF033, 0xF0FF⟩, ⟨.stRegs, 0xF055, 0xF0FF⟩, ⟨.ldRegs, 0xF065, 0xF0FF⟩]

/-- The 34 rows in the table's order. -/
def opcodeTable : List Row := rowsControl ++ rowsAlu ++ rowsIndexed

/-- `(op & mask) = match` (30_encoding R95). -/
def Row.selects (r : Row) (op : Word) : Bool := op &&& r.mask == r.pattern

/-! ## The classifier (30_encoding R96, R99) -/

/-- Family 0x0 is selected by the whole word. -/
def kindOfFamily0 (op : Word) : Kind :=
  if op = 0x00E0#16 then .cls else if op = 0x00EE#16 then .ret else .unknown

/-- Family 0x8 is selected by the low nibble. -/
def kindOfFamily8 (n : Nibble) : Kind :=
  match n with
  | 0x0#4 => .ldReg
  | 0x1#4 => .orReg
  | 0x2#4 => .andReg
  | 0x3#4 => .xorReg
  | 0x4#4 => .addReg
  | 0x5#4 => .sub
  | 0x6#4 => .shr
  | 0x7#4 => .subn
  | 0xE#4 => .shl
  | _ => .unknown

/-- Family 0xE is selected by the low byte. -/
def kindOfFamilyE (nn : Byte) : Kind :=
  match nn with
  | 0x9E#8 => .skp
  | 0xA1#8 => .sknp
  | _ => .unknown

/-- Family 0xF is selected by the low byte. -/
def kindOfFamilyF (nn : Byte) : Kind :=
  match nn with
  | 0x07#8 => .ldVxDt
  | 0x0A#8 => .ldVxK
  | 0x15#8 => .ldDtVx
  | 0x18#8 => .ldStVx
  | 0x1E#8 => .addIVx
  | 0x29#8 => .ldFVx
  | 0x33#8 => .ldBVx
  | 0x55#8 => .stRegs
  | 0x65#8 => .ldRegs
  | _ => .unknown

/-- The kind of any word, family first (30_encoding R94, R96). -/
def kindOf (op : Word) : Kind :=
  match fieldF op with
  | 0x0#4 => kindOfFamily0 op
  | 0x1#4 => .jp
  | 0x2#4 => .call
  | 0x3#4 => .seImm
  | 0x4#4 => .sneImm
  | 0x5#4 => if fieldN op = 0#4 then .seReg else .unknown
  | 0x6#4 => .ldImm
  | 0x7#4 => .addImm
  | 0x8#4 => kindOfFamily8 (fieldN op)
  | 0x9#4 => if fieldN op = 0#4 then .sneReg else .unknown
  | 0xA#4 => .ldI
  | 0xB#4 => .jpV0
  | 0xC#4 => .rnd
  | 0xD#4 => .drw
  | 0xE#4 => kindOfFamilyE (fieldNn op)
  | _ => kindOfFamilyF (fieldNn op)

/-- `classify(op)`: pure and total, all six fields for every kind (30_encoding R96, R102, R104). -/
def classify (op : Word) : Descriptor :=
  ⟨kindOf op, fieldF op, fieldX op, fieldY op, fieldN op, fieldNn op, fieldNnn op⟩

/-- The 6-bit code of a kind (30_encoding R103). -/
def Kind.code : Kind → BitVec 6
  | .unknown => 0
  | .cls => 1
  | .ret => 2
  | .jp => 3
  | .call => 4
  | .seImm => 5
  | .sneImm => 6
  | .seReg => 7
  | .ldImm => 8
  | .addImm => 9
  | .ldReg => 10
  | .orReg => 11
  | .andReg => 12
  | .xorReg => 13
  | .addReg => 14
  | .sub => 15
  | .shr => 16
  | .subn => 17
  | .shl => 18
  | .sneReg => 19
  | .ldI => 20
  | .jpV0 => 21
  | .rnd => 22
  | .drw => 23
  | .skp => 24
  | .sknp => 25
  | .ldVxDt => 26
  | .ldVxK => 27
  | .ldDtVx => 28
  | .ldStVx => 29
  | .addIVx => 30
  | .ldFVx => 31
  | .ldBVx => 32
  | .stRegs => 33
  | .ldRegs => 34

/-! ## The decoder -/

/-- Why bytes are no instruction. -/
inductive DecodeError where
  /-- Fewer than the two bytes every opcode has (30_encoding R90). -/
  | truncated (available : Nat)
  /-- A word of the unknown space (30_encoding R99). -/
  | unknownOpcode (op : Word)
  deriving DecidableEq, Repr

/-- The instruction a descriptor names; `none` for the kind UNKNOWN. An instruction takes only the fields its format
names (30_encoding R92, R104). -/
def Descriptor.instr (d : Descriptor) : Option Instr :=
  match d.kind with
  | .unknown => none
  | .cls => some .cls
  | .ret => some .ret
  | .jp => some (.jp d.nnn)
  | .call => some (.call d.nnn)
  | .seImm => some (.seImm d.x d.nn)
  | .sneImm => some (.sneImm d.x d.nn)
  | .seReg => some (.seReg d.x d.y)
  | .ldImm => some (.ldImm d.x d.nn)
  | .addImm => some (.addImm d.x d.nn)
  | .ldReg => some (.ldReg d.x d.y)
  | .orReg => some (.orReg d.x d.y)
  | .andReg => some (.andReg d.x d.y)
  | .xorReg => some (.xorReg d.x d.y)
  | .addReg => some (.addReg d.x d.y)
  | .sub => some (.sub d.x d.y)
  | .shr => some (.shr d.x d.y)
  | .subn => some (.subn d.x d.y)
  | .shl => some (.shl d.x d.y)
  | .sneReg => some (.sneReg d.x d.y)
  | .ldI => some (.ldI d.nnn)
  | .jpV0 => some (.jpV0 d.nnn)
  | .rnd => some (.rnd d.x d.nn)
  | .drw => some (.drw d.x d.y d.n)
  | .skp => some (.skp d.x)
  | .sknp => some (.sknp d.x)
  | .ldVxDt => some (.ldVxDt d.x)
  | .ldVxK => some (.ldVxK d.x)
  | .ldDtVx => some (.ldDtVx d.x)
  | .ldStVx => some (.ldStVx d.x)
  | .addIVx => some (.addIVx d.x)
  | .ldFVx => some (.ldFVx d.x)
  | .ldBVx => some (.ldBVx d.x)
  | .stRegs => some (.stRegs d.x)
  | .ldRegs => some (.ldRegs d.x)

/-- The instruction a word is, or the name of its rejection. -/
def decode (op : Word) : Except DecodeError Instr :=
  match (classify op).instr with
  | some i => .ok i
  | none => .error (.unknownOpcode op)

/-- `hi ++ lo`: the byte at the lower address is bits 15..8 (20_memory R64, R65). -/
def bigEndian (hi lo : Byte) : Word := hi ++ lo

/-- The decoder over any bytes: it consumes exactly two (30_encoding R90) and gives back the rest. -/
def decodeBytes : List Byte → Except DecodeError (Instr × List Byte)
  | hi :: lo :: rest =>
    match decode (bigEndian hi lo) with
    | .ok i => .ok (i, rest)
    | .error e => .error e
  | short => .error (.truncated short.length)

/-! ## The encoder, from the formats of 30_encoding R92 and the patterns of R95 -/

/-- A register number as the four bits of a field. -/
def regBits (x : Reg) : Nibble := BitVec.ofNat 4 x.val

/-- Format `NNN`. -/
def formatNnn (family : Nibble) (nnn : Addr) : Word := family ++ nnn
/-- Format `XNN`. -/
def formatXnn (family : Nibble) (x : Reg) (nn : Byte) : Word := family ++ (regBits x ++ nn)
/-- Formats `XY` and `XYN`. -/
def formatXyn (family : Nibble) (x y : Reg) (n : Nibble) : Word := family ++ (regBits x ++ (regBits y ++ n))

/-- The word of an instruction. -/
def encode : Instr → Word
  | .cls => 0x00E0
  | .ret => 0x00EE
  | .jp nnn => formatNnn 0x1 nnn
  | .call nnn => formatNnn 0x2 nnn
  | .seImm x nn => formatXnn 0x3 x nn
  | .sneImm x nn => formatXnn 0x4 x nn
  | .seReg x y => formatXyn 0x5 x y 0x0
  | .ldImm x nn => formatXnn 0x6 x nn
  | .addImm x nn => formatXnn 0x7 x nn
  | .ldReg x y => formatXyn 0x8 x y 0x0
  | .orReg x y => formatXyn 0x8 x y 0x1
  | .andReg x y => formatXyn 0x8 x y 0x2
  | .xorReg x y => formatXyn 0x8 x y 0x3
  | .addReg x y => formatXyn 0x8 x y 0x4
  | .sub x y => formatXyn 0x8 x y 0x5
  | .shr x y => formatXyn 0x8 x y 0x6
  | .subn x y => formatXyn 0x8 x y 0x7
  | .shl x y => formatXyn 0x8 x y 0xE
  | .sneReg x y => formatXyn 0x9 x y 0x0
  | .ldI nnn => formatNnn 0xA nnn
  | .jpV0 nnn => formatNnn 0xB nnn
  | .rnd x nn => formatXnn 0xC x nn
  | .drw x y n => formatXyn 0xD x y n
  | .skp x => formatXnn 0xE x 0x9E
  | .sknp x => formatXnn 0xE x 0xA1
  | .ldVxDt x => formatXnn 0xF x 0x07
  | .ldVxK x => formatXnn 0xF x 0x0A
  | .ldDtVx x => formatXnn 0xF x 0x15
  | .ldStVx x => formatXnn 0xF x 0x18
  | .addIVx x => formatXnn 0xF x 0x1E
  | .ldFVx x => formatXnn 0xF x 0x29
  | .ldBVx x => formatXnn 0xF x 0x33
  | .stRegs x => formatXnn 0xF x 0x55
  | .ldRegs x => formatXnn 0xF x 0x65

/-- `op[15:8]`, the byte at the lower address. -/
def highByte (op : Word) : Byte := op.extractLsb' 8 8
/-- `op[7:0]`, the byte at the next address. -/
def lowByte (op : Word) : Byte := op.extractLsb' 0 8

/-- The two bytes of an instruction as memory holds them. -/
def encodeBytes (i : Instr) : List Byte := [highByte (encode i), lowByte (encode i)]

/-! ## The opcode table's numbering -/

/-- The word whose bits the table numbers `w`, `nbits` of them, every bit above them 0. -/
def tableWord (nbits w : Nat) : Word := BitVec.ofNat 16 (w % 2 ^ nbits)

/-- The instruction the decoder reads from the bytes of that word as memory holds them. -/
def decodeTableWord (nbits w : Nat) : Option Instr :=
  match decodeBytes [highByte (tableWord nbits w), lowByte (tableWord nbits w)] with
  | .ok (i, _) => some i
  | .error _ => none

end Sys2Proof
end

