-- ==== Sys2Proof/Machine/State.lean ====
section
/-! DEFINITION. The machine's state (10_state R20), what stops it, and its reset values (10_state R38). Plain data. -/

namespace Sys2Proof.Machine

/-- What stops the machine outside a step. No instruction and no step answers with a fault: every fatal condition of the
spec records itself in `status` and so is a next state (60_exceptions R331, log 3). -/
inductive Fault where
  /-- Raised by the loader alone (`boot`, Machine/Reset.lean) for a ROM of more than 3584 bytes: "reported to the caller,
  run does not start" (60_exceptions R346, 70_reset R373). Safe: no step is taken. -/
  | loadError (length : Nat)
  deriving DecidableEq, Repr

/-- What has no meaning in this model. -/
inductive Refusal where
  /-- Answered by `exec` for an instruction that has no meaning yet: none is left. Safe. -/
  | notModelled (mnemonic : String)
  /-- Answered by a schedule of events (`runEvents`, Machine/Ports.lean) for a load write after the first step, which
  "is outside this spec" (10_state R44). Safe: the schedule stops. -/
  | loadAfterStart (addr : Addr)
  /-- Answered by a schedule of events for a load write below the load address: the loader writes `mem[0x200 + k]` only
  (10_state R44). Safe: the schedule stops. -/
  | loadBelowBase (addr : Addr)
  deriving DecidableEq, Repr

/-- `status.state` (10_state R35). -/
inductive RunState where
  /-- 0: the last step completed normally, or no step yet. -/
  | run
  /-- 1: the last step was `Fx0A` with no key pressed. -/
  | waitKey
  /-- 2: the last step fetched an unknown opcode. -/
  | unimpl
  /-- 3: a fatal condition occurred. Sticky until reset. -/
  | fault
  deriving DecidableEq, Repr

/-- `status.cause` (60_exceptions R332). -/
inductive Cause where
  | none
  | stackUnderflow
  | stackOverflow
  | memoryOutOfRange
  | keyIndexOutOfRange
  deriving DecidableEq, Repr

/-- The status record (10_state R35). -/
structure Status where
  state : RunState
  cause : Cause
  info  : Word
  deriving DecidableEq, Repr

/-- `RUN` with no cause and no info: the status at reset and after every step whose outcome is `Ok` (40_dispatch R131). -/
def Status.ok : Status := ⟨.run, .none, 0⟩

/-- The 16 general registers (10_state R21). -/
abbrev RegFile := Vector Byte 16

/-- The display buffer, one entry a row; bit `c` of row `r` is `Pix(c, r)` (10_state R31). -/
abbrev Display := Vector (BitVec 64) 32

/-- The bytes of memory that differ from the reset contents, by strictly rising address (`Memory.wf` in
Machine/Ops.lean, log 7). -/
abbrev Memory := List Host.Cell

/-- The state of the core (10_state R20), and the model's own two fields for the `rnd` input (R34). -/
structure State where
  /-- `V[0..15]` (R21). -/
  v        : RegFile
  /-- `pc` (R23): a 16-bit field whose value stays in 0..0xFFF. -/
  pc       : Word
  /-- `I` (R25): a 16-bit field whose value stays in 0..0xFFF. -/
  i        : Word
  /-- `DT` (R28). -/
  dt       : Byte
  /-- `ST` (R28). -/
  st       : Byte
  /-- `stack` (R26): the last entry is the top (R27). -/
  stack    : List Addr
  /-- `mem` (R30). -/
  mem      : Memory
  /-- `key[15:0]` (R29, R40): bit `k` is key `k`. -/
  key      : BitVec 16
  /-- `disp` (R31). -/
  disp     : Display
  /-- `dirty` (R32). -/
  dirty    : Bool
  /-- `curOp` (R33). -/
  curOp    : Word
  /-- `status` (R35). -/
  status   : Status
  /-- The MODEL's own (log 2): the bytes the host has supplied on `rnd` and no `Cxnn` has consumed yet, oldest first. -/
  rndIn    : List Byte
  /-- The MODEL's own (log 2): how many draws were taken with nothing supplied. It numbers the free values
  `Config.freeRandom`. -/
  rndCount : Nat
  deriving DecidableEq, Repr

/-- The machine right after reset with no ROM placed (10_state R38, 70_reset R371). An address that `mem` does not list
reads as the reset contents: the font, and 0 elsewhere. Where the source gives no value the zero is the spec's decision
D20, DESIGN CHOICE (log 5); `rndIn` and `rndCount` are the model's own, DESIGN CHOICE (log 2). -/
def State.reset : State where
  v        := Vector.replicate 16 0
  pc       := 0x200
  i        := 0
  dt       := 0
  st       := 0
  stack    := []
  mem      := []
  key      := 0
  disp     := Vector.replicate 32 0
  dirty    := false
  curOp    := 0
  status   := Status.ok
  rndIn    := []
  rndCount := 0

end Sys2Proof.Machine
end

