-- ==== Sys2Proof/Machine/Hardware.lean ====
section
/-! DEFINITION. The values of the named parameters on this hardware (00_scope R5) and the font (20_memory R76). -/

namespace Sys2Proof.Machine

/-- Glyph 0: "`F0 90 90 90 F0`" from the source (20_memory R76). -/
def glyphZero : List Byte := [0xF0, 0x90, 0x90, 0x90, 0xF0]

/-- PRESUMED (log 6): glyphs 1 to 7 of the family's standard table, the default value of `FONT` (20_memory R76). -/
def glyphsOneToSeven : List Byte :=
  [0x20, 0x60, 0x20, 0x20, 0x70,
   0xF0, 0x10, 0xF0, 0x80, 0xF0,
   0xF0, 0x10, 0xF0, 0x10, 0xF0,
   0x90, 0x90, 0xF0, 0x10, 0x10,
   0xF0, 0x80, 0xF0, 0x10, 0xF0,
   0xF0, 0x80, 0xF0, 0x90, 0xF0,
   0xF0, 0x10, 0x20, 0x40, 0x40]

/-- PRESUMED (log 6): glyphs 8 to F of the family's standard table (20_memory R76). -/
def glyphsEightToF : List Byte :=
  [0xF0, 0x90, 0xF0, 0x90, 0xF0,
   0xF0, 0x90, 0xF0, 0x10, 0xF0,
   0xF0, 0x90, 0xF0, 0x90, 0x90,
   0xE0, 0x90, 0xE0, 0x90, 0xE0,
   0xF0, 0x80, 0x80, 0x80, 0xF0,
   0xE0, 0x90, 0x90, 0x90, 0xE0,
   0xF0, 0x80, 0xF0, 0x80, 0xF0,
   0xF0, 0x80, 0xF0, 0x80, 0x80]

/-- `FONT`, the 80 bytes at 0x000..0x04F (20_memory R62, R76). -/
def fontTable : List Byte := glyphZero ++ (glyphsOneToSeven ++ glyphsEightToF)

/-- The parameters of this hardware (00_scope R5); every value but glyph 0 of the font is the spec's own decision
(D10, D13, D17, D19, D20, D29; log 8). -/
def hardware : Params where
  stackDepth    := 16
  font          := fontTable
  shiftWritesVy := true
  flagLast      := true
  keyWaitPick   := fun lowest _ => lowest
  resetZero     := true

end Sys2Proof.Machine
end

