-- ==== Sys2Proof/Machine/Ops.lean ====
section
/-! DEFINITION. The named operations over registers, memory, the call stack and the display, and how a step ends
(00_scope R7, 10_state R27, 20_memory R63, 40_dispatch R127 to R131). -/

namespace Sys2Proof.Machine

/-- How `exec` and `step` answer. -/
abbrev Result := Host.Outcome State Fault Refusal

/-! ## Fatal conditions -/

/-- A fatal condition `F(info)` (60_exceptions R331, R332). -/
structure Condition where
  cause : Cause
  info  : Word
  deriving DecidableEq, Repr

/-- A computation that may raise. -/
abbrev Checked (α : Type) := Except Condition α

/-! ## How a step ends (40_dispatch R120, R131) -/

/-- Outcome `Ok`: `status.state <- RUN`, cause and info 0. -/
def complete (s : State) : Result := .next { s with status := Status.ok }

/-- Outcome `WaitKey`: `status.state <- WAITKEY`, cause and info 0. -/
def waitForKey (s : State) : Result := .next { s with status := ⟨.waitKey, .none, 0⟩ }

/-- Outcome `Unimplemented`: `status.state <- UNIMPL`, cause and info 0, nothing else (40_dispatch R126). -/
def unimplemented (s : State) : Result := .next { s with status := ⟨.unimpl, .none, 0⟩ }

/-- `raise F(info)`, THE fatal condition of every instruction and of fetch: `status` takes FAULT, the cause and the info,
and nothing else changes: no register is saved, no mode changes and control goes nowhere (60_exceptions R331, R337).
There is no return from it but reset (R338). -/
def raise (c : Condition) (s : State) : Result := .next { s with status := ⟨.fault, c.cause, c.info⟩ }

/-- End a step that started in `s`: a raised condition discards everything the step had computed, so a fault leaves the
state of the start (40_dispatch R129). -/
def finish (s : State) : Checked State → Result
  | .ok t => complete t
  | .error c => raise c s

/-! ## Registers (00_scope R7) -/

/-- `a & 0xFFF`. -/
def mask12 (a : Word) : Word := a &&& 0x0FFF#16

/-- `V[x]`. -/
def State.readV (s : State) (x : Reg) : Byte := s.v[x]

/-- `V[x] <- b`. No register is hard-wired (10_state R21). -/
def State.writeV (s : State) (x : Reg) (b : Byte) : State := { s with v := s.v.set x b }

/-- `I <- a`: a write stores `a & 0xFFF`. -/
def State.writeI (s : State) (a : Word) : State := { s with i := mask12 a }

/-- `pc <- a`: a write stores `a & 0xFFF`. -/
def State.writePc (s : State) (a : Word) : State := { s with pc := mask12 a }

/-- `DT <- b`. -/
def State.writeDt (s : State) (b : Byte) : State := { s with dt := b }

/-- `ST <- b`. -/
def State.writeSt (s : State) (b : Byte) : State := { s with st := b }

/-- `curOp <- op` (40_dispatch R123). -/
def State.writeCurOp (s : State) (op : Word) : State := { s with curOp := op }

/-! ## PC updates (40_dispatch R127, R128) -/

/-- `seq`: `pc <- (pc + 2) & 0xFFF`. -/
def State.seq (s : State) : State := s.writePc (s.pc + 2)

/-- `skipIf(c)`: the pc advances by 4 when the condition holds, by 2 otherwise (41_control_flow R140). -/
def State.skipIf (c : Bool) (s : State) : State := if c then s.writePc (s.pc + 4) else s.seq

/-! ## The call stack (10_state R27) -/

/-- `push(a)`. A push onto a full stack raises before anything is written. -/
def push (p : Params) (a : Word) (s : State) : Checked State :=
  if s.stack.length ≥ p.stackDepth then .error ⟨.stackOverflow, BitVec.ofNat 16 s.stack.length⟩
  else .ok { s with stack := s.stack ++ [(mask12 a).setWidth 12] }

/-- `pop()`: the popped address and the state without it. -/
def pop (s : State) : Checked (Word × State) :=
  match s.stack.getLast? with
  | none => .error ⟨.stackUnderflow, 0⟩
  | some a => .ok (a.setWidth 16, { s with stack := s.stack.dropLast })

/-! ## Memory (20_memory R62, R63) -/

/-- What an address that `Memory` does not list reads as: the reset contents, the font at 0x000..0x04F and 0 elsewhere
(10_state R38, 20_memory R68, log 7). -/
def Memory.unlisted (a : Nat) : Byte := fontTable.getD a 0

/-- The byte at an address. -/
def Memory.read : Memory → Nat → Byte
  | [], a => Memory.unlisted a
  | (b, w) :: rest, a => if a = b then w else Memory.read rest a

/-- The memory that reads `w` at `a` and otherwise as before, in canonical form. -/
def Memory.write : Memory → Nat → Byte → Memory
  | [], a, w => if w = Memory.unlisted a then [] else [(a, w)]
  | (b, u) :: rest, a, w =>
    if a < b then (if w = Memory.unlisted a then (b, u) :: rest else (a, w) :: (b, u) :: rest)
    else if a = b then (if w = Memory.unlisted a then rest else (a, w) :: rest)
    else (b, u) :: Memory.write rest a w

/-- Every listed address is in the space and above `low`, and reads otherwise than the reset contents. -/
def Memory.wfFrom : Nat → Memory → Bool
  | _, [] => true
  | low, (a, w) :: rest => decide (low ≤ a) && decide (a < 4096) && (w != Memory.unlisted a) && Memory.wfFrom (a + 1) rest

/-- The canonical form: addresses strictly rising, below 4096, no entry equal to what an unlisted address reads as. Equal
memories are then equal lists. -/
def Memory.wf (m : Memory) : Bool := Memory.wfFrom 0 m

/-- `n` bytes from `base` upwards. -/
def Memory.readList (m : Memory) (base : Nat) : Nat → List Byte
  | 0 => []
  | n + 1 => m.read base :: Memory.readList m (base + 1) n

/-- The bytes written from `base` upwards, the first first. -/
def Memory.writeList : Memory → Nat → List Byte → Memory
  | m, _, [] => m
  | m, base, b :: bs => Memory.writeList (m.write base b) (base + 1) bs

/-- `MemoryOutOfRange(a)`. -/
def outOfRange (a : Nat) : Condition := ⟨.memoryOutOfRange, BitVec.ofNat 16 a⟩

/-- `MemRead(a, 1)`. -/
def memRead (s : State) (a : Nat) : Checked Byte :=
  if a > 0xFFF then .error (outOfRange a) else .ok (s.mem.read a)

/-- All of `n` byte addresses from `base` upwards exist (20_memory R63: the sum is not masked). No address is formed when
`n = 0`. -/
def inRange (base n : Nat) : Bool := decide (n = 0 ∨ base + n ≤ 0x1000)

/-- The lowest address above 0xFFF among those from `base` upwards, the one a fault reports (40_dispatch R130): 0x1000
whenever `base` is an address (60_exceptions R332). -/
def lowestOutOfRange (base : Nat) : Nat := max base 0x1000

/-- `MemRead` of `n` consecutive bytes, the bound of every byte checked first (40_dispatch R129). -/
def readBytes (s : State) (base n : Nat) : Checked (List Byte) :=
  if inRange base n then .ok (s.mem.readList base n) else .error (outOfRange (lowestOutOfRange base))

/-- `MemWrite` of consecutive bytes, the bound of every byte checked before any is written (40_dispatch R129). -/
def writeBytes (s : State) (base : Nat) (bs : List Byte) : Checked State :=
  if inRange base bs.length then .ok { s with mem := s.mem.writeList base bs }
  else .error (outOfRange (lowestOutOfRange base))

/-! ## The display (10_state R31, R32) -/

/-- `Pix(c, r)`. -/
def Display.pix (d : Display) (c : Fin 64) (r : Fin 32) : Bool := d[r].getLsbD c.val

/-- `Pix(c, r) <- Pix(c, r) ^ 1`. -/
def Display.toggle (d : Display) (c : Fin 64) (r : Fin 32) : Display :=
  d.set r (d[r] ^^^ BitVec.twoPow 64 c.val)

/-- Every pixel 0. -/
def Display.clear : Display := Vector.replicate 32 0

/-- A write of the display sets `dirty` (10_state R32, D15). -/
def State.writeDisp (s : State) (d : Display) : State := { s with disp := d, dirty := true }

/-! ## The random input (10_state R34, log 2) -/

/-- `RndByte()`: the oldest byte the host has supplied, else the free value of this draw's number. -/
def rndByte (s : State) : Byte :=
  match s.rndIn with
  | b :: _ => b
  | [] => Config.freeRandom s.rndCount

/-- The draw is consumed: exactly one per `Cxnn` step. -/
def State.takeRnd (s : State) : State :=
  match s.rndIn with
  | _ :: rest => { s with rndIn := rest }
  | [] => { s with rndCount := s.rndCount + 1 }

/-! ## Fetch (20_memory R64, 40_dispatch R122) -/

/-- `op <- MemRead(pc, 1) ++ MemRead(pc + 1, 1)`; `pc + 1` is not masked. -/
def fetch (s : State) : Checked Word :=
  match memRead s s.pc.toNat with
  | .error c => .error c
  | .ok hi =>
    match memRead s (s.pc.toNat + 1) with
    | .error c => .error c
    | .ok lo => .ok (bigEndian hi lo)

/-! ## One step over an execute phase (40_dispatch R121) -/

/-- The step around `execute`: `Halted` in FAULT, else fetch, `curOp <- op`, classify, execute (40_dispatch R121 to R126).
`step` is this over `exec`, and `stepWith` over the execute phase at any parameters (10_state R39). -/
def cycle (execute : Instr → State → Result) (s : State) : Result :=
  match s.status.state with
  | .fault => .next s
  | _ =>
    match fetch s with
    | .error c => raise c s
    | .ok op =>
      match decode op with
      | .ok i => execute i (s.writeCurOp op)
      | .error _ => unimplemented (s.writeCurOp op)

/-! ## Placing a word -/

/-- Store an instruction's bytes at an address (what the loader does, 10_state R44). -/
def State.placeWord (s : State) (a : Nat) (op : Word) : State :=
  { s with mem := s.mem.writeList a [highByte op, lowByte op] }

/-- Where fetch can read both bytes: `pc` itself, or the load address when `pc` is 0xFFF or no address (log 20). -/
def fetchablePc (pc : Word) : Word := if pc.toNat + 1 > 0xFFF then 0x200#16 else pc

/-- A status in which a step runs: FAULT gives way to RUN, any other status stays (log 20). -/
def runnableStatus (st : Status) : Status :=
  match st.state with
  | .fault => Status.ok
  | _ => st

end Sys2Proof.Machine
end

