-- ==== Sys2Proof/Machine/Operands.lean ====
section
/-! DEFINITION. Every operand form of the spec: zero-extended immediates and registers (30_encoding R93), the effective
addresses (43_index_memory R236), the glyph address, the decimal digits, the register blocks, the key operands and the
sprite. All are read from the state at the start of the step (00_scope R8). -/

namespace Sys2Proof.Machine

/-- `nnn` as a 16-bit value: zero-extended (30_encoding R93). -/
def address (nnn : Addr) : Word := nnn.setWidth 16

/-- `zext_16(V[x])`. -/
def State.readWide (s : State) (x : Reg) : Word := (s.readV x).setWidth 16

/-- `I`, the base of every indexed access, as an unbounded natural (20_memory R63, 43_index_memory R236). -/
def indexBase (s : State) : Nat := s.i.toNat

/-- `FONT_BASE + 5 * zext_16(V[x])`, not reduced (43_index_memory R232, D18). -/
def glyphAddress (digit : Byte) : Word := BitVec.ofNat 16 (Config.fontBase + Config.glyphSize * digit.toNat)

/-- The three decimal digits, hundreds first; the hundreds digit without a modulo (43_index_memory R233). -/
def bcdDigits (v : Byte) : List Byte :=
  [BitVec.ofNat 8 (v.toNat / 100), BitVec.ofNat 8 (v.toNat / 10 % 10), BitVec.ofNat 8 (v.toNat % 10)]

/-- The number of registers of `V0..Vx`, `x + 1`. -/
def blockSize (x : Reg) : Nat := x.val + 1

/-- `V0..Vx` in order (43_index_memory R234). -/
def State.readBlock (s : State) (x : Reg) : List Byte := s.v.toList.take (blockSize x)

/-- Registers from number `k` upwards take the bytes in order. -/
def setRegsFrom (v : RegFile) (k : Nat) : List Byte → RegFile
  | [] => v
  | b :: bs => setRegsFrom (v.setIfInBounds k b) (k + 1) bs

/-- `for k in 0..x: V[k] <- …` (43_index_memory R235). -/
def State.writeBlock (s : State) (bs : List Byte) : State := { s with v := setRegsFrom s.v 0 bs }

/-- `I <- (I + x + 1) & 0xFFF` (43_index_memory R234, R235, D28). -/
def State.advanceI (s : State) (x : Reg) : State := s.writeI (s.i + BitVec.ofNat 16 (blockSize x))

/-- `Key(k)` (45_timers_input R307). -/
def State.keyDown (s : State) (k : Reg) : Bool := s.key.getLsbD k.val

/-- `V[x]` as a key index: a value above 0xF raises (45_timers_input R306, D16). -/
def keyIndex (s : State) (x : Reg) : Checked Reg :=
  if h : (s.readV x).toNat < 16 then .ok ⟨(s.readV x).toNat, h⟩
  else .error ⟨.keyIndexOutOfRange, s.readWide x⟩

/-- The pressed keys in rising order (45_timers_input R305). -/
def pressedKeys (s : State) : List Reg := (List.finRange 16).filter s.keyDown

/-- A key's index as the byte `Fx0A` stores. -/
def keyByte (k : Reg) : Byte := BitVec.ofNat 8 k.val

/-- `(V[x] + c) mod 64` (44_display R271). -/
def pixelColumn (cx : Byte) (c : Nat) : Fin 64 := Fin.ofNat 64 (cx.toNat + c)

/-- `(V[y] + r) mod 32` (44_display R271). -/
def pixelRow (cy : Byte) (r : Nat) : Fin 32 := Fin.ofNat 32 (cy.toNat + r)

/-- Whether the sprite row has a 1 at column offset `c`: bit 7 is the leftmost column (44_display R272, D14). -/
def spriteBit (s : Byte) (c : Nat) : Bool := s.getLsbD (7 - c)

end Sys2Proof.Machine
end

