-- ==== Sys2Proof/Machine/Flags.lean ====
section
/-! DEFINITION. Every flag computation of the spec, and the order of result and flag (42_alu R181). The flag is `VF`. -/

namespace Sys2Proof.Machine

/-- A condition as the byte a flag takes: 1 or 0. -/
def flagByte (c : Bool) : Byte := if c then 1 else 0

/-- `8xy4`: the carry out of bit 7 (42_alu R189). -/
def carryFlag (a b : Byte) : Byte := flagByte (decide (a.toNat + b.toNat > 255))

/-- `8xy5`, `8xy7`: the strict `a > b` (42_alu R190, R192). -/
def greaterFlag (a b : Byte) : Byte := flagByte (decide (a.toNat > b.toNat))

/-- `8xy6`: bit 0 of the value before the shift (42_alu R191). -/
def lsbFlag (a : Byte) : Byte := a &&& 1

/-- `8xyE`: bit 7 of the value before the shift (42_alu R193). -/
def msbFlag (a : Byte) : Byte := (a >>> 7) &&& 1

/-- `V[x] <- r` for each destination in order. -/
def State.writeResults (s : State) (r : Byte) : List Reg → State
  | [] => s
  | x :: xs => (s.writeV x r).writeResults r xs

/-- The result and the flag in the order of `FLAG_LAST`: with it, `VF` ends holding the flag when it is also a
destination (42_alu R181, D10). -/
def State.writeFlagged (p : Params) (s : State) (dests : List Reg) (r flag : Byte) : State :=
  if p.flagLast then (s.writeResults r dests).writeV VF flag
  else (s.writeV VF flag).writeResults r dests

/-- The destinations of a shift: `Vx`, and `Vy` too when `SHIFT_WRITES_VY` holds (42_alu R191, R193, R196). -/
def shiftDests (p : Params) (x y : Reg) : List Reg := if p.shiftWritesVy then [x, y] else [x]

end Sys2Proof.Machine
end

