-- ==== Sys2Proof/Machine/Alu.lean ====
section
/-! DEFINITION. The register ALU (42_alu). Operands are read before any write (R180); every instruction ends with the pc
update `seq`; none raises. -/

namespace Sys2Proof.Machine

/-- `V[x] <- r` and `seq`: an instruction with no flag (42_alu R182). -/
def loadResult (x : Reg) (r : Byte) (s : State) : Result :=
  complete (s.writeV x r).seq

/-- Results, flag and `seq`: an instruction with a flag (42_alu R181). -/
def loadFlagged (p : Params) (dests : List Reg) (r flag : Byte) (s : State) : Result :=
  complete (s.writeFlagged p dests r flag).seq

/-- `LD Vx,nn` (42_alu R183). -/
def execLdImm (x : Reg) (nn : Byte) (s : State) : Result :=
  loadResult x nn s

/-- `ADD Vx,nn` (42_alu R184): modulo 256, no carry. -/
def execAddImm (x : Reg) (nn : Byte) (s : State) : Result :=
  loadResult x (s.readV x + nn) s

/-- `LD Vx,Vy` (42_alu R185). -/
def execLdReg (x y : Reg) (s : State) : Result :=
  loadResult x (s.readV y) s

/-- `OR Vx,Vy` (42_alu R186). -/
def execOrReg (x y : Reg) (s : State) : Result :=
  loadResult x (s.readV x ||| s.readV y) s

/-- `AND Vx,Vy` (42_alu R187). -/
def execAndReg (x y : Reg) (s : State) : Result :=
  loadResult x (s.readV x &&& s.readV y) s

/-- `XOR Vx,Vy` (42_alu R188). -/
def execXorReg (x y : Reg) (s : State) : Result :=
  loadResult x (s.readV x ^^^ s.readV y) s

/-- `ADD Vx,Vy` under any parameters (42_alu R181, R189). -/
def addWith (p : Params) (x y : Reg) (s : State) : Result :=
  loadFlagged p [x] (s.readV x + s.readV y) (carryFlag (s.readV x) (s.readV y)) s

/-- `V[x] <- a - b` with the flag `a > b`, under any parameters (42_alu R181, R190, R192). -/
def subtractWith (p : Params) (x : Reg) (a b : Byte) (s : State) : Result :=
  loadFlagged p [x] (a - b) (greaterFlag a b) s

/-- `ADD Vx,Vy` (42_alu R189). -/
def execAddReg (x y : Reg) (s : State) : Result :=
  addWith hardware x y s

/-- `SUB Vx,Vy` (42_alu R190). -/
def execSub (x y : Reg) (s : State) : Result :=
  subtractWith hardware x (s.readV x) (s.readV y) s

/-- `SHR Vx,Vy` under any parameters (42_alu R191, R196): the operand shifted is `Vx`. -/
def shiftRight (p : Params) (x y : Reg) (s : State) : Result :=
  loadFlagged p (shiftDests p x y) (s.readV x >>> 1) (lsbFlag (s.readV x)) s

/-- `SHL Vx,Vy` under any parameters (42_alu R193, R196): the operand shifted is `Vx`. -/
def shiftLeft (p : Params) (x y : Reg) (s : State) : Result :=
  loadFlagged p (shiftDests p x y) (s.readV x <<< 1) (msbFlag (s.readV x)) s

/-- `SHR Vx,Vy` (42_alu R191). -/
def execShr (x y : Reg) (s : State) : Result :=
  shiftRight hardware x y s

/-- `SUBN Vx,Vy` (42_alu R192). -/
def execSubn (x y : Reg) (s : State) : Result :=
  subtractWith hardware x (s.readV y) (s.readV x) s

/-- `SHL Vx,Vy` (42_alu R193). -/
def execShl (x y : Reg) (s : State) : Result :=
  shiftLeft hardware x y s

/-- `RND Vx,nn` (42_alu R194): this step's draw, masked; exactly one draw is consumed (10_state R34). -/
def execRnd (x : Reg) (nn : Byte) (s : State) : Result :=
  loadResult x (rndByte s &&& nn) s.takeRnd

end Sys2Proof.Machine
end

