-- ==== Sys2Proof/Machine/ControlFlow.lean ====
section
/-! DEFINITION. Jumps, call, return and the skips on registers (41_control_flow). -/

namespace Sys2Proof.Machine

/-- `RET` (41_control_flow R141): the popped value is the pc as is. -/
def execRet (s : State) : Result :=
  finish s (match pop s with
    | .ok (a, t) => .ok (t.writePc a)
    | .error c => .error c)

/-- `JP nnn` (41_control_flow R142). -/
def execJp (nnn : Addr) (s : State) : Result :=
  complete (s.writePc (address nnn))

/-- `CALL nnn` under any parameters (41_control_flow R143): what is pushed is the address of the next instruction (D12),
and the bound of the stack is `STACK_DEPTH`. -/
def callWith (p : Params) (nnn : Addr) (s : State) : Result :=
  finish s (match push p (mask12 (s.pc + 2)) s with
    | .ok t => .ok (t.writePc (address nnn))
    | .error c => .error c)

/-- `CALL nnn` (41_control_flow R143). -/
def execCall (nnn : Addr) (s : State) : Result :=
  callWith hardware nnn s

/-- `SE Vx,nn` (41_control_flow R144). -/
def execSeImm (x : Reg) (nn : Byte) (s : State) : Result :=
  complete (s.skipIf (s.readV x == nn))

/-- `SNE Vx,nn` (41_control_flow R145). -/
def execSneImm (x : Reg) (nn : Byte) (s : State) : Result :=
  complete (s.skipIf (s.readV x != nn))

/-- `SE Vx,Vy` (41_control_flow R146). -/
def execSeReg (x y : Reg) (s : State) : Result :=
  complete (s.skipIf (s.readV x == s.readV y))

/-- `SNE Vx,Vy` (41_control_flow R147). -/
def execSneReg (x y : Reg) (s : State) : Result :=
  complete (s.skipIf (s.readV x != s.readV y))

/-- `JP V0,nnn` (41_control_flow R148): always `V0`. -/
def execJpV0 (nnn : Addr) (s : State) : Result :=
  complete (s.writePc (s.readWide V0 + address nnn))

end Sys2Proof.Machine
end

