-- ==== Sys2Proof/Machine/Display.lean ====
section
/-! DEFINITION. The framebuffer write unit (44_display). -/

namespace Sys2Proof.Machine

/-- The buffer and the collision `coll`, as the loops of 44_display R271 carry them. -/
abbrev Canvas := Display × Bool

/-- One sprite bit of the inner loop: a 1 toggles its pixel, and a pixel that was set is a collision (44_display R271). -/
def drawBit (cx cy s : Byte) (r c : Nat) (k : Canvas) : Canvas :=
  if spriteBit s c then
    (Display.toggle k.1 (pixelColumn cx c) (pixelRow cy r), k.2 || Display.pix k.1 (pixelColumn cx c) (pixelRow cy r))
  else k

/-- The first `n` column offsets of a sprite row, `c = 0` first. -/
def drawColumns (cx cy s : Byte) (r : Nat) : Nat → Canvas → Canvas
  | 0, k => k
  | n + 1, k => drawBit cx cy s r n (drawColumns cx cy s r n k)

/-- One sprite row: `for c in 0..7` (44_display R271). -/
def drawRow (cx cy s : Byte) (r : Nat) (k : Canvas) : Canvas := drawColumns cx cy s r 8 k

/-- The sprite's rows from row `r` on (44_display R271). -/
def drawRows (cx cy : Byte) : Nat → List Byte → Canvas → Canvas
  | _, [], k => k
  | r, s :: rest, k => drawRows cx cy (r + 1) rest (drawRow cx cy s r k)

/-- `CLS` (44_display R270): `dirty` is set even when the buffer was clear (D15). -/
def execCls (s : State) : Result :=
  complete (s.writeDisp Display.clear).seq

/-- `DRW Vx,Vy,n` (44_display R271): `VF` is written last. -/
def execDrw (x y : Reg) (n : Nibble) (s : State) : Result :=
  finish s (match readBytes s (indexBase s) n.toNat with
    | .ok sprite =>
      let k := drawRows (s.readV x) (s.readV y) 0 sprite (s.disp, false)
      .ok ((s.writeDisp k.1).writeV VF (flagByte k.2)).seq
    | .error c => .error c)

end Sys2Proof.Machine
end

