-- ==== Sys2Proof/Machine/IndexMemory.lean ====
section
/-! DEFINITION. The indexed memory unit (43_index_memory). Every instruction that completes ends with `seq`; the bound of
every byte is checked before the step writes anything (40_dispatch R129). -/

namespace Sys2Proof.Machine

/-- `LD I,nnn` (43_index_memory R230). -/
def execLdI (nnn : Addr) (s : State) : Result :=
  complete (s.writeI (address nnn)).seq

/-- `ADD I,Vx` (43_index_memory R231): no flag. -/
def execAddIVx (x : Reg) (s : State) : Result :=
  complete (s.writeI (s.i + s.readWide x)).seq

/-- `LD F,Vx` (43_index_memory R232). -/
def execLdFVx (x : Reg) (s : State) : Result :=
  complete (s.writeI (glyphAddress (s.readV x))).seq

/-- `LD B,Vx` (43_index_memory R233): `I` is not changed. -/
def execLdBVx (x : Reg) (s : State) : Result :=
  finish s (match writeBytes s (indexBase s) (bcdDigits (s.readV x)) with
    | .ok t => .ok t.seq
    | .error c => .error c)

/-- `LD [I],Vx` (43_index_memory R234). -/
def execStRegs (x : Reg) (s : State) : Result :=
  finish s (match writeBytes s (indexBase s) (s.readBlock x) with
    | .ok t => .ok (t.advanceI x).seq
    | .error c => .error c)

/-- `LD Vx,[I]` (43_index_memory R235). -/
def execLdRegs (x : Reg) (s : State) : Result :=
  finish s (match readBytes s (indexBase s) (blockSize x) with
    | .ok bs => .ok ((s.writeBlock bs).advanceI x).seq
    | .error c => .error c)

end Sys2Proof.Machine
end

