-- ==== Sys2Proof/Machine/TimersInput.lean ====
section
/-! DEFINITION. Timer access and key input (45_timers_input). -/

namespace Sys2Proof.Machine

/-- `LD Vx,DT` (45_timers_input R300). -/
def execLdVxDt (x : Reg) (s : State) : Result :=
  complete (s.writeV x s.dt).seq

/-- `LD DT,Vx` (45_timers_input R301). -/
def execLdDtVx (x : Reg) (s : State) : Result :=
  complete (s.writeDt (s.readV x)).seq

/-- `LD ST,Vx` (45_timers_input R302). -/
def execLdStVx (x : Reg) (s : State) : Result :=
  complete (s.writeSt (s.readV x)).seq

/-- `SKP Vx` (45_timers_input R303). -/
def execSkp (x : Reg) (s : State) : Result :=
  finish s (match keyIndex s x with
    | .ok k => .ok (s.skipIf (s.keyDown k))
    | .error c => .error c)

/-- `SKNP Vx` (45_timers_input R304). -/
def execSknp (x : Reg) (s : State) : Result :=
  finish s (match keyIndex s x with
    | .ok k => .ok (s.skipIf (!s.keyDown k))
    | .error c => .error c)

/-- `LD Vx,K` under any parameters (45_timers_input R305): with no key pressed the step waits and changes nothing else. -/
def waitKey (p : Params) (x : Reg) (s : State) : Result :=
  match pressedKeys s with
  | [] => waitForKey s
  | k :: ks => complete (s.writeV x (keyByte (p.keyWaitPick k ks))).seq

/-- `LD Vx,K` (45_timers_input R305): the lowest pressed key (D17). -/
def execLdVxK (x : Reg) (s : State) : Result :=
  waitKey hardware x s

end Sys2Proof.Machine
end

