-- ==== Sys2Proof/Machine/Step.lean ====
section
/-! DEFINITION. One step of the core (40_dispatch R121). -/

namespace Sys2Proof.Machine

/-- The step of this hardware: `Halted` in FAULT, else fetch, `curOp <- op`, classify, execute (40_dispatch R121 to R126). -/
def step (s : State) : Host.Outcome State Fault Refusal :=
  cycle exec s

/-- `s` with the word that the opcode table numbers `w` stored where `step` fetches next: at `pc`. Where `step` would not
fetch at all, the state is first made one in which it does (log 20): `pc` 0xFFF or above gives way to the load address,
and FAULT to RUN. -/
def State.withFetchWord (s : State) (nbits w : Nat) : State :=
  let t : State := { s with pc := fetchablePc s.pc, status := runnableStatus s.status }
  t.placeWord t.pc.toNat (tableWord nbits w)

end Sys2Proof.Machine
end

