-- ==== Sys2Proof/Machine/Disassembler.lean ====
section
/-! DEFINITION. The disassembler (30_encoding R105 to R108): peripheral, over the core's own classifier, touching no
machine state. The text conventions are the spec's decision D26 (log 24). -/

namespace Sys2Proof.Machine

/-- An uppercase hex digit. -/
def hexDigit (d : Nat) : Char :=
  ['0', '1', '2', '3', '4', '5', '6', '7', '8', '9', 'A', 'B', 'C', 'D', 'E', 'F'].getD d '0'

/-- The `width` lowest hex digits, most significant first. -/
def hexChars : Nat → Nat → List Char
  | 0, _ => []
  | width + 1, v => hexChars width (v / 16) ++ [hexDigit (v % 16)]

/-- A value as exactly `width` uppercase hex digits (30_encoding R105). -/
def hexText (width v : Nat) : String := String.ofList (hexChars width v)

/-- A ROM address as uppercase hex (30_encoding R106): three digits in the address space. -/
def addressText (a : Nat) : String := hexText (if a < 0x1000 then 3 else 4) a

/-- `V` and one uppercase hex digit (30_encoding R105). -/
def regText (x : Reg) : String := "V" ++ hexText 1 x.val

/-- Two register operands, a comma and no space between them. -/
def pairText (x y : Reg) : String := regText x ++ "," ++ regText y

/-- A register and an `nn`. -/
def regByteText (x : Reg) (nn : Byte) : String := regText x ++ "," ++ hexText 2 nn.toNat

/-- The mnemonic of 30_encoding R95 with its operands in the syntax of R105. -/
def mnemonicText : Instr → String
  | .cls => "CLS"
  | .ret => "RET"
  | .jp nnn => "JP " ++ hexText 3 nnn.toNat
  | .call nnn => "CALL " ++ hexText 3 nnn.toNat
  | .seImm x nn => "SE " ++ regByteText x nn
  | .sneImm x nn => "SNE " ++ regByteText x nn
  | .seReg x y => "SE " ++ pairText x y
  | .ldImm x nn => "LD " ++ regByteText x nn
  | .addImm x nn => "ADD " ++ regByteText x nn
  | .ldReg x y => "LD " ++ pairText x y
  | .orReg x y => "OR " ++ pairText x y
  | .andReg x y => "AND " ++ pairText x y
  | .xorReg x y => "XOR " ++ pairText x y
  | .addReg x y => "ADD " ++ pairText x y
  | .sub x y => "SUB " ++ pairText x y
  | .shr x y => "SHR " ++ pairText x y
  | .subn x y => "SUBN " ++ pairText x y
  | .shl x y => "SHL " ++ pairText x y
  | .sneReg x y => "SNE " ++ pairText x y
  | .ldI nnn => "LD I," ++ hexText 3 nnn.toNat
  | .jpV0 nnn => "JP V0," ++ hexText 3 nnn.toNat
  | .rnd x nn => "RND " ++ regByteText x nn
  | .drw x y n => "DRW " ++ pairText x y ++ "," ++ hexText 1 n.toNat
  | .skp x => "SKP " ++ regText x
  | .sknp x => "SKNP " ++ regText x
  | .ldVxDt x => "LD " ++ regText x ++ ",DT"
  | .ldVxK x => "LD " ++ regText x ++ ",K"
  | .ldDtVx x => "LD DT," ++ regText x
  | .ldStVx x => "LD ST," ++ regText x
  | .addIVx x => "ADD I," ++ regText x
  | .ldFVx x => "LD F," ++ regText x
  | .ldBVx x => "LD B," ++ regText x
  | .stRegs x => "LD [I]," ++ regText x
  | .ldRegs x => "LD " ++ regText x ++ ",[I]"

/-- A word's mnemonic text, or the placeholder of an unknown opcode (30_encoding R108). -/
def wordText (op : Word) : String :=
  match decode op with
  | .ok i => mnemonicText i
  | .error _ => "UNKNOWN"

/-- One line (30_encoding R106): the address prefix only when requested. -/
def disassembleLine (withAddress : Bool) (a : Nat) (op : Word) : String :=
  (if withAddress then "#" ++ addressText a ++ " : " else "") ++ wordText op ++ " (" ++ hexText 4 op.toNat ++ ")"

/-- The lines from address `a` on: two bytes at a time, a trailing single byte ignored (30_encoding R108). -/
def disassembleFrom (withAddress : Bool) : Nat → List Byte → List String
  | a, hi :: lo :: rest => disassembleLine withAddress a (bigEndian hi lo) :: disassembleFrom withAddress (a + 2) rest
  | _, _ => []

/-- The listing of a ROM image; the address of an opcode is `0x200 + offset` (30_encoding R106, C6). -/
def disassemble (withAddress : Bool) (rom : List Byte) : List String :=
  disassembleFrom withAddress Config.loadAddr rom

end Sys2Proof.Machine
end

