-- ==== Sys2Proof/Machine/Parametric.lean ====
section
/-! DEFINITION. The machine over its parameters (10_state R39; 92_eei_decisions: "the model should take the parameter as an
argument and this spec's value is the default"). `exec` and `step` are this machine at `hardware`, the default. -/

namespace Sys2Proof.Machine

/-- Whether an instruction's effect depends on a parameter: `2nnn` on `STACK_DEPTH`, the flagged register operations on
`FLAG_LAST`, the shifts on `SHIFT_WRITES_VY` too, and `Fx0A` on `KEY_WAIT_PICK` (00_scope R5). -/
def readsParams : Instr → Bool
  | .call _ | .addReg _ _ | .sub _ _ | .shr _ _ | .subn _ _ | .shl _ _ | .ldVxK _ => true
  | .cls | .ret | .jp _ | .seImm _ _ | .sneImm _ _ | .seReg _ _ | .ldImm _ _ | .addImm _ _ | .ldReg _ _ | .orReg _ _
  | .andReg _ _ | .xorReg _ _ | .sneReg _ _ | .ldI _ | .jpV0 _ | .rnd _ _ | .drw _ _ _ | .skp _ | .sknp _ | .ldVxDt _
  | .ldDtVx _ | .ldStVx _ | .addIVx _ | .ldFVx _ | .ldBVx _ | .stRegs _ | .ldRegs _ => false

/-- Execute an instruction under any parameters (40_dispatch R125, 10_state R39). -/
def execWith (p : Params) (i : Instr) (s : State) : Result :=
  match i with
  | .call nnn => callWith p nnn s
  | .addReg x y => addWith p x y s
  | .sub x y => subtractWith p x (s.readV x) (s.readV y) s
  | .subn x y => subtractWith p x (s.readV y) (s.readV x) s
  | .shr x y => shiftRight p x y s
  | .shl x y => shiftLeft p x y s
  | .ldVxK x => waitKey p x s
  | .cls | .ret | .jp _ | .seImm _ _ | .sneImm _ _ | .seReg _ _ | .ldImm _ _ | .addImm _ _ | .ldReg _ _ | .orReg _ _
  | .andReg _ _ | .xorReg _ _ | .sneReg _ _ | .ldI _ | .jpV0 _ | .rnd _ _ | .drw _ _ _ | .skp _ | .sknp _ | .ldVxDt _
  | .ldDtVx _ | .ldStVx _ | .addIVx _ | .ldFVx _ | .ldBVx _ | .stRegs _ | .ldRegs _ => exec i s

/-- The step under any parameters (40_dispatch R121, 10_state R39). -/
def stepWith (p : Params) (s : State) : Result := cycle (execWith p) s

end Sys2Proof.Machine
end

