-- ==== Sys2Proof/Machine/Reset.lean ====
section
/-! DEFINITION. The reset procedure and the loader (70_reset R370 to R374), over the parameters `FONT` and `RESET_ZERO`. -/

namespace Sys2Proof.Machine

/-- Step 1 and step 3 of the reset procedure (70_reset R371) from a machine in any state `u`. With `RESET_ZERO` every
element takes its value of 10_state R38; without it the elements whose value the source does not give keep the arbitrary
ones of `u` (00_scope R5, D20; log 5). The draws of the `rnd` input go on: they are the host's, not the core's (log 2). -/
def resetElements (p : Params) (u : State) : State :=
  if p.resetZero then { State.reset with rndIn := u.rndIn, rndCount := u.rndCount }
  else { u with pc := 0x200, disp := Display.clear, status := Status.ok }

/-- The reset procedure without the ROM: step 2 seeds the font, glyph `d` at `5*d` (70_reset R371). -/
def resetMachine (p : Params) (u : State) : State :=
  let t := resetElements p u
  { t with mem := t.mem.writeList Config.fontBase p.font }

/-- Step 4: `mem[0x200 + k] <- rom[k]` (70_reset R371, R373). -/
def loadRom (rom : List Byte) (s : State) : State :=
  { s with mem := s.mem.writeList Config.loadAddr rom }

/-- Construct a machine for a run (70_reset R370): an oversized ROM is rejected and the run does not start (R373, D21). -/
def boot (p : Params) (rom : List Byte) (u : State) : Result :=
  if romWellFormed rom then .next (loadRom rom (resetMachine p u)) else .fault (.loadError rom.length)

end Sys2Proof.Machine
end

