-- ==== Sys2Proof/Machine/Ports.lean ====
section
/-! DEFINITION. The transaction-level interface of the core (10_state R40 to R45): what the host may do between two
steps, what it may read, and schedules that interleave its transactions with steps (log 1). -/

namespace Sys2Proof.Machine

/-! ## Inputs (10_state R40) -/

/-- One transaction at the ports. -/
inductive Event where
  /-- `reset` (70_reset R371). -/
  | reset
  /-- `load_we`, `load_addr`, `load_data` (10_state R44). -/
  | load (addr : Addr) (data : Byte)
  /-- `step` (40_dispatch R121). -/
  | step
  /-- `key_in`: bit `k` is key `k` (45_timers_input R307). -/
  | keyIn (keys : BitVec 16)
  /-- `rnd`: one more byte for the core to draw (10_state R34). -/
  | rnd (b : Byte)
  /-- `tmr_we_dt`, `tmr_we_st`, `tmr_wdata` (10_state R42). -/
  | tmrWrite (weDt weSt : Bool) (data : Byte)
  /-- A tick of the reference timer driver (45_timers_input R308, log 23). -/
  | tick
  /-- `snap` (10_state R43). -/
  | snap
  deriving DecidableEq, Repr

/-- `key_in`. The core never writes the keys (10_state R29). -/
def setKeys (keys : BitVec 16) (s : State) : State := { s with key := keys }

/-- `rnd`: the byte waits behind those already supplied. -/
def supplyRnd (b : Byte) (s : State) : State := { s with rndIn := s.rndIn ++ [b] }

/-- A write of the timer driver: either timer, any byte. -/
def writeTimers (weDt weSt : Bool) (data : Byte) (s : State) : State :=
  { s with dt := if weDt then data else s.dt, st := if weSt then data else s.st }

/-- One timer after a tick: a timer at 0 stays (45_timers_input R308). -/
def tickTimer (b : Byte) : Byte := if b = 0 then 0 else b - 1

/-- A tick of the reference driver. -/
def tickTimers (s : State) : State := { s with dt := tickTimer s.dt, st := tickTimer s.st }

/-- One byte of the loader. -/
def loadByte (addr : Addr) (data : Byte) (s : State) : State := { s with mem := s.mem.write addr.toNat data }

/-- What a snapshot returns: the whole of `disp` and `dirty` (10_state R43). -/
structure Snapshot where
  disp  : Display
  dirty : Bool
  deriving DecidableEq, Repr

/-- `snap`: one atomic read, then `dirty <- 0` and nothing else (10_state R43). -/
def snapshot (s : State) : Snapshot × State := (⟨s.disp, s.dirty⟩, { s with dirty := false })

/-! ## Schedules -/

/-- One transaction under any parameters (10_state R39). `loading` says that no step has been taken since the last reset: a
load is legal only then, and only from the load address upwards (10_state R44). -/
def applyEventWith (p : Params) (loading : Bool) (e : Event) (s : State) : Result :=
  match e with
  | .reset => .next (resetMachine p s)
  | .load a b =>
    if loading then (if a.toNat < Config.loadAddr then .refused (.loadBelowBase a) else .next (loadByte a b s))
    else .refused (.loadAfterStart a)
  | .step => stepWith p s
  | .keyIn k => .next (setKeys k s)
  | .rnd b => .next (supplyRnd b s)
  | .tmrWrite d t b => .next (writeTimers d t b s)
  | .tick => .next (tickTimers s)
  | .snap => .next (snapshot s).2

/-- One transaction on this hardware. -/
def applyEvent (loading : Bool) (e : Event) (s : State) : Result := applyEventWith hardware loading e s

/-- Whether loads are legal after a transaction (10_state R44). -/
def stillLoading (loading : Bool) : Event → Bool
  | .reset => true
  | .step => false
  | .load _ _ | .keyIn _ | .rnd _ | .tmrWrite _ _ _ | .tick | .snap => loading

/-- A schedule under any parameters: the transactions one after the other, stopping at the first that answers no next
state. -/
def runEventsWith (p : Params) : Bool → List Event → State → Result
  | _, [], s => .next s
  | loading, e :: es, s =>
    match applyEventWith p loading e s with
    | .next t => runEventsWith p (stillLoading loading e) es t
    | .fault f => .fault f
    | .refused r => .refused r

/-- A schedule on this hardware. -/
def runEvents (loading : Bool) (es : List Event) (s : State) : Result := runEventsWith hardware loading es s

/-! ## Outputs (10_state R35, R40, R41, R45) -/

/-- The 2-bit code of `status.state` (10_state R35). -/
def RunState.code : RunState → BitVec 2
  | .run => 0
  | .waitKey => 1
  | .unimpl => 2
  | .fault => 3

/-- The 3-bit code of a cause (60_exceptions R332). -/
def Cause.code : Cause → BitVec 3
  | .none => 0
  | .stackUnderflow => 1
  | .stackOverflow => 2
  | .memoryOutOfRange => 3
  | .keyIndexOutOfRange => 4

/-- `disp_out`: bit `r*64 + c` is `Pix(c, r)` (10_state R40). -/
def dispOut (d : Display) : BitVec 2048 := d.toList.foldr (fun row rest => (rest <<< 64) ||| row.setWidth 2048) 0

/-- The output ports. -/
structure Outputs where
  dispOut   : BitVec 2048
  dirtyOut  : Bool
  /-- `status.state`, `status.cause`, `status.info`. -/
  statusOut : BitVec 2 × BitVec 3 × Word
  curopOut  : Word
  dtOut     : Byte
  stOut     : Byte
  deriving DecidableEq, Repr

/-- The outputs as the state drives them. -/
def outputs (s : State) : Outputs :=
  ⟨dispOut s.disp, s.dirty, (s.status.state.code, s.status.cause.code, s.status.info), s.curOp, s.dt, s.st⟩

/-- The debug view (10_state R45): it is read between steps and changes nothing. -/
structure DebugView where
  v      : RegFile
  pc     : Word
  i      : Word
  stack  : List Addr
  /-- All 4096 bytes, address 0 first. -/
  mem    : List Byte
  curOp  : Word
  status : Status
  deriving DecidableEq, Repr

/-- The debug view of a state. -/
def debugView (s : State) : DebugView :=
  ⟨s.v, s.pc, s.i, s.stack, s.mem.readList 0 Config.memSize, s.curOp, s.status⟩

/-- The classifier port: the signals that 10_state R41 lists, `kind`, `x`, `y`, `n`, `nn`, `nnn`. The family is in the
descriptor and drives no signal (log 29). -/
def classifierPort (op : Word) : BitVec 6 × Nibble × Nibble × Nibble × Byte × Addr :=
  let d := classify op
  (d.kind.code, regBits d.x, regBits d.y, d.n, d.nn, d.nnn)

/-! ## Reported outcomes (40_dispatch R120) -/

/-- The five outcomes of a step. -/
inductive Report where
  | ok
  | waitKey
  | unimplemented
  | fault (cause : Cause) (info : Word)
  | halted
  deriving DecidableEq, Repr

/-- The outcome that the status after a step which ran reports. -/
def Status.report (st : Status) : Report :=
  match st.state with
  | .run => .ok
  | .waitKey => .waitKey
  | .unimpl => .unimplemented
  | .fault => .fault st.cause st.info

/-- The outcome of a step from `s` under any parameters: `Halted` when the machine is in FAULT, else what the new status
reports. `none` would be a step that answers no next state: there is none. -/
def stepReportWith (p : Params) (s : State) : Option Report :=
  match s.status.state, stepWith p s with
  | .fault, _ => some .halted
  | _, .next t => some t.status.report
  | _, _ => none

/-- The outcome of a step on this hardware. -/
def stepReport (s : State) : Option Report := stepReportWith hardware s

end Sys2Proof.Machine
end

