-- ==== Sys2Proof/Safety.lean ====
section
/-! DEFINITION. The terms the claims use: the machine's invariant, the states a machine can reach, what a safe run is, and
what it means that a step changes nothing else. -/

namespace Sys2Proof.Machine

/-! ## The invariant (10_state R35, R37) -/

/-- The status record as 10_state R35 and 60_exceptions R332 allow it: no cause and no info outside FAULT, and in FAULT a
cause with the info that the cause records. The info of a StackOverflow is the depth of the full stack. -/
def Status.legalWith (p : Params) (st : Status) : Bool :=
  match st.state, st.cause with
  | .fault, .none => false
  | .fault, .stackUnderflow => st.info == 0
  | .fault, .stackOverflow => st.info == BitVec.ofNat 16 p.stackDepth
  | .fault, .memoryOutOfRange => st.info == 0x1000
  | .fault, .keyIndexOutOfRange => decide (16 ≤ st.info.toNat ∧ st.info.toNat < 256)
  | _, .none => st.info == 0
  | _, _ => false

/-- What holds after reset and after every step (10_state R37): `pc` and `I` are addresses, the stack keeps its bound
`STACK_DEPTH`, memory is in canonical form and the status record is legal. Register, timer, cell and stack-entry widths
are their types'. -/
abbrev State.InvWith (p : Params) (s : State) : Prop :=
  s.pc.toNat < 4096 ∧ s.i.toNat < 4096 ∧ s.stack.length ≤ p.stackDepth ∧ s.mem.wf = true ∧ s.status.legalWith p = true

/-- The invariant on this hardware: the depth of the stack is at most 16. -/
abbrev State.Inv (s : State) : Prop := s.InvWith hardware

/-! ## Reachable states -/

/-- The states a machine with these parameters can reach: from a boot with some ROM, by steps and any host transaction
between them. The state `u` before the boot is any legal one: with `RESET_ZERO = false` it supplies the arbitrary values. -/
inductive ReachableWith (p : Params) : State → Prop where
  | boot (rom : List Byte) (u s : State) (hu : u.InvWith p) (h : boot p rom u = .next s) : ReachableWith p s
  | event (e : Event) (s t : State) (hs : ReachableWith p s) (h : applyEventWith p false e s = .next t) : ReachableWith p t

/-- The states that this hardware can reach. -/
abbrev Reachable (s : State) : Prop := ReachableWith hardware s

/-! ## Safe runs -/

/-- A state a claim may treat as an ordinary one: the last step completed or waits for a key. A claim treats UNIMPL and
FAULT as non-final (D3, D8). -/
def State.live (s : State) : Bool :=
  match s.status.state with
  | .run | .waitKey => true
  | .unimpl | .fault => false

/-- A run of `k` steps with no host transaction in which every state is live. -/
def safeRun : Nat → State → Bool
  | 0, s => s.live
  | k + 1, s =>
    s.live && (match step s with
      | .next t => safeRun k t
      | .fault _ => false
      | .refused _ => false)

/-! ## Frames -/

/-- Every byte of memory reads as before. -/
def SameMemory (s t : State) : Prop := ∀ a : Nat, t.mem.read a = s.mem.read a

/-- Every register but those listed is unchanged. -/
def SameRegsBut (xs : List Reg) (s t : State) : Prop := ∀ r : Reg, r ∉ xs → t.readV r = s.readV r

/-- Nothing but `V`, `pc` and `status` differs. -/
def OnlyRegs (s t : State) : Prop := t = { s with v := t.v, pc := t.pc, status := t.status }

/-- Nothing but `pc` and `status` differs. -/
def OnlyPc (s t : State) : Prop := t = { s with pc := t.pc, status := t.status }

/-- Nothing but `I`, `pc` and `status` differs. -/
def OnlyIndex (s t : State) : Prop := t = { s with i := t.i, pc := t.pc, status := t.status }

/-- The pc update `seq` and the outcome `Ok` (40_dispatch R127, R131). -/
def CompletesSeq (s t : State) : Prop := t.pc.toNat = (s.pc.toNat + 2) % 4096 ∧ t.status = Status.ok

/-- The fatal condition `cause` with `info` and nothing else (40_dispatch R129, 60_exceptions R331). -/
def FaultsWith (cause : Cause) (info : Word) (s t : State) : Prop := t = { s with status := ⟨.fault, cause, info⟩ }

end Sys2Proof.Machine
end

