-- ==== Sys2Proof/Certificates/Slice0/Obligations.lean ====
section
/-! DEFINITION. The statements for the provers. Where a statement rests on a decision of the spec (a row D<n> of
92_eei_decisions.md) or on an entry of the model's assumption log, its docstring names it. -/

open Sys2Proof Sys2Proof.Machine

/-! ## Encoding -/

/-- 30_encoding R91: field extraction is purely bitwise and is done for every opcode, whatever its family. Each field of the
classifier's descriptor, the family among them, widened to 16 bits, is the shift and mask of the rule. -/
def Obligations.FieldsAreShiftsAndMasks : Prop :=
  ∀ op : Word,
    (classify op).f.setWidth 16 = (op >>> 12) &&& 0xF#16 ∧
    (regBits (classify op).x).setWidth 16 = (op >>> 8) &&& 0xF#16 ∧
    (regBits (classify op).y).setWidth 16 = (op >>> 4) &&& 0xF#16 ∧
    (classify op).n.setWidth 16 = op &&& 0xF#16 ∧
    (classify op).nn.setWidth 16 = op &&& 0xFF#16 ∧
    (classify op).nnn.setWidth 16 = op &&& 0xFFF#16

/-- Decoding an instruction's own word, or its two bytes followed by any others, gives the instruction back with every
operand (30_encoding R90, R92, R95), in the opcode table's numbering too. -/
def Obligations.DecodeInvertsEncode : Prop :=
  ∀ (i : Instr) (rest : List Byte),
    decode (encode i) = .ok i ∧
    decodeBytes (encodeBytes i ++ rest) = .ok (i, rest) ∧
    decodeTableWord 16 (encode i).toNat = some i

/-- Every bit of a documented word is fixed or an operand: encoding the decoded instruction gives the word back
(30_encoding R98, decision D9). -/
def Obligations.EncodeInvertsDecode : Prop :=
  ∀ (op : Word) (i : Instr), decode op = .ok i → encode i = op

/-- The classifier as a decision procedure agrees with the table of match and mask: a row selects a word exactly when the
classifier gives the word the row's kind (30_encoding R95, R96; the near misses are decision D9). -/
def Obligations.ClassifierSelectsTheTableRow : Prop :=
  ∀ (op : Word) (r : Row), r ∈ opcodeTable → (r.selects op = true ↔ (classify op).kind = r.kind)

/-- The words that decode to nothing are exactly the unknown space (30_encoding R99, decision D9). -/
def Obligations.RejectedWordsAreTheUnknownSpace : Prop :=
  ∀ op : Word, decode op = .error (.unknownOpcode op) ↔
    (op.toNat / 4096 = 0 ∧ op.toNat ≠ 0x00E0 ∧ op.toNat ≠ 0x00EE) ∨
    (op.toNat / 4096 = 5 ∧ op.toNat % 16 ≠ 0) ∨
    (op.toNat / 4096 = 8 ∧ op.toNat % 16 ∈ [8, 9, 10, 11, 12, 13, 15]) ∨
    (op.toNat / 4096 = 9 ∧ op.toNat % 16 ≠ 0) ∨
    (op.toNat / 4096 = 14 ∧ op.toNat % 256 ∉ [0x9E, 0xA1]) ∨
    (op.toNat / 4096 = 15 ∧ op.toNat % 256 ∉ [0x07, 0x0A, 0x15, 0x18, 0x1E, 0x29, 0x33, 0x55, 0x65])

/-- Words written out from the patterns of 30_encoding R95, one of each family, and three of the unknown space. -/
def Obligations.SampleWordsDecode : Prop :=
  decode 0x00E0 = .ok .cls ∧ decode 0x00EE = .ok .ret ∧ decode 0x1234 = .ok (.jp 0x234) ∧
  decode 0x3310 = .ok (.seImm 3 0x10) ∧ decode 0x6A12 = .ok (.ldImm 10 0x12) ∧ decode 0x8126 = .ok (.shr 1 2) ∧
  decode 0x9AB0 = .ok (.sneReg 10 11) ∧ decode 0xA300 = .ok (.ldI 0x300) ∧ decode 0xC30F = .ok (.rnd 3 0x0F) ∧
  decode 0xDFFF = .ok (.drw 15 15 15) ∧ decode 0xE19E = .ok (.skp 1) ∧ decode 0xF265 = .ok (.ldRegs 2) ∧
  decode 0x0000 = .error (.unknownOpcode 0x0000) ∧ decode 0x5121 = .error (.unknownOpcode 0x5121) ∧
  decode 0xFFFF = .error (.unknownOpcode 0xFFFF)

/-! ## The step -/

/-- When the machine is not halted and the two bytes at `pc` decode to `i`, the step stores the word in `curOp` and is
`exec i`; under any parameters it is `execWith p i` (40_dispatch R121 to R125; 20_memory R64; 10_state R39). -/
def Obligations.StepRunsTheDecodedInstruction : Prop :=
  ∀ (s : State) (i : Instr), s.status.state ≠ .fault → s.pc.toNat < 0xFFF →
    decode (bigEndian (s.mem.read s.pc.toNat) (s.mem.read (s.pc.toNat + 1))) = .ok i →
    step s = exec i { s with curOp := bigEndian (s.mem.read s.pc.toNat) (s.mem.read (s.pc.toNat + 1)) } ∧
    ∀ p : Params, stepWith p s =
      execWith p i { s with curOp := bigEndian (s.mem.read s.pc.toNat) (s.mem.read (s.pc.toNat + 1)) }

/-- A step on an unknown opcode changes `curOp` and reports Unimplemented; `pc` stays (40_dispatch R126, decision D8,
C3; log 4). -/
def Obligations.UnknownOpcodeReportsUnimplemented : Prop :=
  ∀ (s : State) (e : DecodeError), s.status.state ≠ .fault → s.pc.toNat < 0xFFF →
    decode (bigEndian (s.mem.read s.pc.toNat) (s.mem.read (s.pc.toNat + 1))) = .error e →
    step s = .next { s with curOp := bigEndian (s.mem.read s.pc.toNat) (s.mem.read (s.pc.toNat + 1)),
                            status := ⟨.unimpl, .none, 0⟩ }

/-- A fetch at 0xFFF raises MemoryOutOfRange(0x1000) before `curOp` is written (40_dispatch R122, decision D5). -/
def Obligations.FetchAtTheTopFaults : Prop :=
  ∀ s : State, s.status.state ≠ .fault → s.pc.toNat = 0xFFF →
    step s = .next { s with status := ⟨.fault, .memoryOutOfRange, 0x1000⟩ }

/-- FAULT is sticky: whatever steps and host transactions follow, as long as none is a reset, the status and everything
the core owns but memory stay (40_dispatch R121, 60_exceptions R331, R338; decision D3; log 3). -/
def Obligations.HaltedUntilReset : Prop :=
  ∀ (loading : Bool) (es : List Event) (s t : State), s.status.state = .fault → Event.reset ∉ es →
    runEvents loading es s = .next t →
    t.status = s.status ∧ t.v = s.v ∧ t.pc = s.pc ∧ t.i = s.i ∧ t.stack = s.stack ∧ t.disp = s.disp ∧ t.curOp = s.curOp

/-- The word placed by `withFetchWord` is the one the very next step runs, and a state that can fetch keeps everything
but the two bytes at `pc` (the model's own convention, log 20). -/
def Obligations.PlacedWordRunsNext : Prop :=
  ∀ (s : State) (i : Instr), s.mem.wf = true →
    step (s.withFetchWord 16 (encode i).toNat) =
      exec i { s.withFetchWord 16 (encode i).toNat with curOp := encode i } ∧
    (s.status.state ≠ .fault → s.pc.toNat < 0xFFF →
      s.withFetchWord 16 (encode i).toNat = { s with mem := (s.withFetchWord 16 (encode i).toNat).mem } ∧
      ∀ a : Nat, a ≠ s.pc.toNat → a ≠ s.pc.toNat + 1 →
        (s.withFetchWord 16 (encode i).toNat).mem.read a = s.mem.read a)

/-- Every step and every instruction answers a next state: the machine has no trap, and its fatal conditions are states
(60_exceptions R330, R331, decision D3; log 3). -/
def Obligations.EveryStepAnswersNext : Prop :=
  (∀ s : State, ∃ t, step s = .next t) ∧ (∀ (i : Instr) (s : State), ∃ t, exec i s = .next t)

/-! ## Reset and invariants -/

/-- The reset state (10_state R38, 70_reset R371): `pc`, display, glyph 0 and status are the source's; the zeros are
decision D20, DESIGN CHOICE (log 5, log 7). -/
def Obligations.ResetValues : Prop :=
  State.reset.pc = 0x200 ∧ (∀ c r, State.reset.disp.pix c r = false) ∧ State.reset.status = ⟨.run, .none, 0⟩ ∧
  State.reset.mem.readList 0 5 = [0xF0, 0x90, 0x90, 0x90, 0xF0] ∧
  (∀ a : Nat, 0x50 ≤ a → State.reset.mem.read a = 0) ∧
  (∀ r : Reg, State.reset.readV r = 0) ∧ State.reset.i = 0 ∧ State.reset.dt = 0 ∧ State.reset.st = 0 ∧
  State.reset.stack = [] ∧ (∀ k : Reg, State.reset.keyDown k = false) ∧ State.reset.dirty = false ∧ State.reset.curOp = 0

/-- The reset state satisfies the invariant (10_state R37, R38). -/
def Obligations.ResetSatisfiesInvariant : Prop := State.reset.Inv

/-- Every step keeps the invariant: `pc` and `I` stay addresses, the stack keeps its bound, memory stays canonical and the
status record stays one that R35 and R332 allow (10_state R37). -/
def Obligations.StepKeepsInvariant : Prop :=
  ∀ s t : State, s.Inv → step s = .next t → t.Inv

/-- Every transaction at the ports, a step among them, keeps the invariant, under any well-formed parameters (10_state R37,
R39, R40). -/
def Obligations.EveryTransactionKeepsInvariant : Prop :=
  (∀ (loading : Bool) (e : Event) (s t : State), s.Inv → applyEvent loading e s = .next t → t.Inv) ∧
  ∀ (p : Params) (loading : Bool) (e : Event) (s t : State), p.wellFormed = true → s.InvWith p →
    applyEventWith p loading e s = .next t → t.InvWith p

/-- Every state a machine can reach, from a boot with any ROM and with any host transaction between any two steps,
satisfies the invariant, under any well-formed parameters (10_state R37, R39, 70_reset R371). -/
def Obligations.ReachableStatesSatisfyInvariant : Prop :=
  (∀ s : State, Reachable s → s.Inv) ∧
  ∀ (p : Params) (s : State), p.wellFormed = true → ReachableWith p s → s.InvWith p

/-- The canonical form is canonical: memories that read alike at every address are the same list (log 7). -/
def Obligations.EqualReadsGiveEqualMemories : Prop :=
  ∀ m n : Memory, m.wf = true → n.wf = true → (∀ a : Nat, a < 4096 → m.read a = n.read a) → m = n

/-! ## Whole-machine rules -/

/-- Faults are precise: a step that raises changes nothing but `status`, and `curOp` if the fetch succeeded (40_dispatch
R129, decision D4). -/
def Obligations.FaultingStepsChangeOnlyStatus : Prop :=
  (∀ (i : Instr) (s t : State), exec i s = .next t → t.status.state = .fault → t = { s with status := t.status }) ∧
  (∀ s t : State, step s = .next t → t.status.state = .fault → t = { s with curOp := t.curOp, status := t.status })

/-- The only causes each instruction can raise, with the condition of each (60_exceptions R332, R333; decisions D5,
D16). -/
def Obligations.CausesByInstruction : Prop :=
  ∀ (i : Instr) (s t : State), exec i s = .next t → t.status.state = .fault →
    (i = .ret ∧ s.stack = [] ∧ t.status.cause = .stackUnderflow) ∨
    (∃ nnn, i = .call nnn ∧ 16 ≤ s.stack.length ∧ t.status.cause = .stackOverflow) ∨
    (∃ x y n, i = .drw x y n ∧ 0 < n.toNat ∧ 0xFFF < s.i.toNat + n.toNat - 1 ∧ t.status.cause = .memoryOutOfRange) ∨
    (∃ x, i = .ldBVx x ∧ 0xFFD < s.i.toNat ∧ t.status.cause = .memoryOutOfRange) ∨
    (∃ x : Reg, (i = .stRegs x ∨ i = .ldRegs x) ∧ 0xFFF < s.i.toNat + x.val ∧ t.status.cause = .memoryOutOfRange) ∨
    (∃ x, (i = .skp x ∨ i = .sknp x) ∧ 0xF < (s.readV x).toNat ∧ t.status.cause = .keyIndexOutOfRange ∧
      t.status.info.toNat = (s.readV x).toNat)

/-- The status an instruction leaves: Ok, WaitKey for `Fx0A` with no key pressed, or FAULT (40_dispatch R120, R131,
decision D3). -/
def Obligations.StatusAfterAnInstruction : Prop :=
  ∀ (i : Instr) (s t : State), exec i s = .next t →
    t.status = ⟨.run, .none, 0⟩ ∨
    (t.status = ⟨.waitKey, .none, 0⟩ ∧ (∃ x, i = .ldVxK x) ∧ ∀ k : Reg, s.keyDown k = false) ∨
    t.status.state = .fault

/-- Whether an instruction may write `VF`: as a flag, or as an ordinary destination (10_state R22). -/
def mayWriteVF : Instr → Bool
  | .addReg _ _ | .sub _ _ | .shr _ _ | .subn _ _ | .shl _ _ | .drw _ _ _ => true
  | .ldImm x _ | .addImm x _ | .ldReg x _ | .orReg x _ | .andReg x _ | .xorReg x _ | .rnd x _ | .ldVxDt x | .ldVxK x
  | .ldRegs x => x == VF
  | .cls | .ret | .jp _ | .call _ | .seImm _ _ | .sneImm _ _ | .seReg _ _ | .sneReg _ _ | .ldI _ | .jpV0 _ | .skp _
  | .sknp _ | .ldDtVx _ | .ldStVx _ | .addIVx _ | .ldFVx _ | .ldBVx _ | .stRegs _ => false

/-- No other instruction touches `VF` (10_state R22, 42_alu R182; decision D11, C7). -/
def Obligations.VfWrittenOnlyAsFlagOrDestination : Prop :=
  ∀ (i : Instr) (s t : State), exec i s = .next t → mayWriteVF i = false → t.readV VF = s.readV VF

/-- Each of these elements is written only by the instructions its rule names: memory by `Fx33` and `Fx55` (20_memory
R60), the stack by `2nnn` and `00EE` (10_state R26), the display and `dirty` by `00E0` and `Dxyn` (R31, R32, decision
D15), the timers by `Fx15` and `Fx18` (R28), and `curOp` and the random input by no instruction but `Cxnn` for the latter
(R33, R34). -/
def Obligations.OnlyTheNamedInstructionsWrite : Prop :=
  ∀ (i : Instr) (s t : State), exec i s = .next t →
    (t.mem ≠ s.mem → ∃ x, i = .ldBVx x ∨ i = .stRegs x) ∧
    (t.stack ≠ s.stack → i = .ret ∨ ∃ nnn, i = .call nnn) ∧
    (t.disp ≠ s.disp ∨ t.dirty ≠ s.dirty → i = .cls ∨ ∃ x y n, i = .drw x y n) ∧
    (t.dt ≠ s.dt → ∃ x, i = .ldDtVx x) ∧
    (t.st ≠ s.st → ∃ x, i = .ldStVx x) ∧
    (t.rndIn ≠ s.rndIn ∨ t.rndCount ≠ s.rndCount → ∃ x nn, i = .rnd x nn) ∧
    t.curOp = s.curOp

/-- The pc-update kinds of 40_dispatch R127. -/
inductive PcKind where
  | seq | skip | target
  deriving DecidableEq, Repr

/-- The kind of an instruction that completes (40_dispatch R127). -/
def pcKind : Instr → PcKind
  | .seImm _ _ | .sneImm _ _ | .seReg _ _ | .sneReg _ _ | .skp _ | .sknp _ => .skip
  | .jp _ | .call _ | .jpV0 _ | .ret => .target
  | .cls | .ldImm _ _ | .addImm _ _ | .ldReg _ _ | .orReg _ _ | .andReg _ _ | .xorReg _ _ | .addReg _ _ | .sub _ _
  | .shr _ _ | .subn _ _ | .shl _ _ | .ldI _ | .rnd _ _ | .drw _ _ _ | .ldVxDt _ | .ldVxK _ | .ldDtVx _ | .ldStVx _
  | .addIVx _ | .ldFVx _ | .ldBVx _ | .stRegs _ | .ldRegs _ => .seq

/-- The pc after every instruction: by its kind when it completes, unchanged when it waits or raises; all modulo 4096
(40_dispatch R127, R128, R129; decisions D4, D6). -/
def Obligations.PcFollowsItsUpdateKind : Prop :=
  ∀ (i : Instr) (s t : State), exec i s = .next t →
    (t.status.state ≠ .run → t.pc = s.pc) ∧
    (t.status.state = .run →
      (pcKind i = .seq → t.pc.toNat = (s.pc.toNat + 2) % 4096) ∧
      (pcKind i = .skip → t.pc.toNat = (s.pc.toNat + 2) % 4096 ∨ t.pc.toNat = (s.pc.toNat + 4) % 4096) ∧
      t.pc.toNat < 4096)

/-- `ST`, `dirty` and `curOp` are read by no instruction: with other values in them every other element ends the same
(10_state R28, R33; `dirty`, decision D15). -/
def Obligations.UnreadElementsDoNotMatter : Prop :=
  ∀ (i : Instr) (s t : State) (b : Byte) (d : Bool) (c : Word), exec i s = .next t →
    ∃ u, exec i { s with st := b, dirty := d, curOp := c } = .next u ∧
      t = { u with st := t.st, dirty := t.dirty, curOp := t.curOp }

/-- Whether an instruction depends on the keys (10_state R29). -/
def readsKeys : Instr → Bool
  | .skp _ | .sknp _ | .ldVxK _ => true
  | .cls | .ret | .jp _ | .call _ | .seImm _ _ | .sneImm _ _ | .seReg _ _ | .ldImm _ _ | .addImm _ _ | .ldReg _ _
  | .orReg _ _ | .andReg _ _ | .xorReg _ _ | .addReg _ _ | .sub _ _ | .shr _ _ | .subn _ _ | .shl _ _ | .sneReg _ _
  | .ldI _ | .jpV0 _ | .rnd _ _ | .drw _ _ _ | .ldVxDt _ | .ldDtVx _ | .ldStVx _ | .addIVx _ | .ldFVx _ | .ldBVx _
  | .stRegs _ | .ldRegs _ => false

/-- 10_state R29: there is one flag for each of 16 keys, the input adapter's write sets flag `k` to bit `k`, the core never
writes the keys, no other transaction of the host writes them (a reset makes a new machine), and only the key-dependent
opcodes read them. -/
def Obligations.KeysAreTheHostsAndReadByThree : Prop :=
  (∀ (s : State) (keys : BitVec 16) (k : Reg), (setKeys keys s).keyDown k = keys.getLsbD k.val) ∧
  (∀ (i : Instr) (s t : State), exec i s = .next t → t.key = s.key) ∧
  (∀ s t : State, step s = .next t → t.key = s.key) ∧
  (∀ (loading : Bool) (e : Event) (s t : State), (∀ keys, e ≠ .keyIn keys) → e ≠ .reset →
    applyEvent loading e s = .next t → t.key = s.key) ∧
  (∀ (i : Instr) (s t : State) (keys : BitVec 16), readsKeys i = false → exec i s = .next t →
    exec i { s with key := keys } = .next { t with key := keys })

/-- The instructions that write `I` (10_state R25). -/
def writesI : Instr → Bool
  | .ldI _ | .addIVx _ | .ldFVx _ | .stRegs _ | .ldRegs _ => true
  | .cls | .ret | .jp _ | .call _ | .seImm _ _ | .sneImm _ _ | .seReg _ _ | .ldImm _ _ | .addImm _ _ | .ldReg _ _
  | .orReg _ _ | .andReg _ _ | .xorReg _ _ | .addReg _ _ | .sub _ _ | .shr _ _ | .subn _ _ | .shl _ _ | .sneReg _ _
  | .jpV0 _ | .rnd _ _ | .drw _ _ _ | .skp _ | .sknp _ | .ldVxDt _ | .ldVxK _ | .ldDtVx _ | .ldStVx _ | .ldBVx _ => false

/-- The instructions that read `I` (10_state R25). -/
def readsI : Instr → Bool
  | .drw _ _ _ | .addIVx _ | .ldBVx _ | .stRegs _ | .ldRegs _ => true
  | .cls | .ret | .jp _ | .call _ | .seImm _ _ | .sneImm _ _ | .seReg _ _ | .ldImm _ _ | .addImm _ _ | .ldReg _ _
  | .orReg _ _ | .andReg _ _ | .xorReg _ _ | .addReg _ _ | .sub _ _ | .shr _ _ | .subn _ _ | .shl _ _ | .sneReg _ _
  | .ldI _ | .jpV0 _ | .rnd _ _ | .skp _ | .sknp _ | .ldVxDt _ | .ldVxK _ | .ldDtVx _ | .ldStVx _ | .ldFVx _ => false

/-- 10_state R25: `I` stays in 0..0xFFF; only the five instructions named write it, and a value they write is below
0x1000; only the five named read it: under any other the rest of the state ends the same whatever `I` held. -/
def Obligations.IndexRegisterUse : Prop :=
  ∀ (i : Instr) (s t : State), exec i s = .next t →
    (s.i.toNat < 4096 → t.i.toNat < 4096) ∧
    (t.i ≠ s.i → writesI i = true ∧ t.i.toNat < 4096) ∧
    (∀ a : Word, readsI i = false →
      exec i { s with i := a } = .next { t with i := if writesI i then t.i else a })

/-! ## The register ALU -/

/-- 42_alu R183, R185: `6xnn` (match 0x6000, mask 0xF000) loads its immediate and `8xy0` (match 0x8000, mask 0xF00F) copies
`Vy`, `VF` like any register; no flag, no exception, and every other register and element is unchanged but `pc` and
`status`. -/
def Obligations.LoadsWriteTheirRegister : Prop :=
  (∀ op : Word, op &&& 0xF000#16 = 0x6000#16 → decode op = .ok (.ldImm (fieldX op) (fieldNn op))) ∧
  (∀ op : Word, op &&& 0xF00F#16 = 0x8000#16 → decode op = .ok (.ldReg (fieldX op) (fieldY op))) ∧
  ∀ (x : Reg) (s : State),
    (∀ nn : Byte, ∃ t, exec (.ldImm x nn) s = .next t ∧ t.readV x = nn ∧ SameRegsBut [x] s t ∧ OnlyRegs s t ∧
      t.status.state ≠ .fault) ∧
    (∀ y : Reg, ∃ t, exec (.ldReg x y) s = .next t ∧ t.readV x = s.readV y ∧ SameRegsBut [x] s t ∧ OnlyRegs s t ∧
      t.status.state ≠ .fault)

/-- `7xnn` adds modulo 256 and writes no carry (42_alu R184, decision D11; pc wrap D6). -/
def Obligations.AddImmediateWrapsWithoutCarry : Prop :=
  ∀ (x : Reg) (nn : Byte) (s : State), ∃ t, exec (.addImm x nn) s = .next t ∧
    (t.readV x).toNat = ((s.readV x).toNat + nn.toNat) % 256 ∧ SameRegsBut [x] s t ∧ OnlyRegs s t ∧ CompletesSeq s t

/-- `8xy1`, `8xy2`, `8xy3` are bitwise and leave `VF` unchanged unless it is the destination (42_alu R186 to R188,
decision D11; pc wrap D6). -/
def Obligations.LogicIsBitwise : Prop :=
  ∀ (x y : Reg) (s : State),
    (∃ t, exec (.orReg x y) s = .next t ∧
      (∀ k, (t.readV x).getLsbD k = ((s.readV x).getLsbD k || (s.readV y).getLsbD k)) ∧
      SameRegsBut [x] s t ∧ OnlyRegs s t ∧ CompletesSeq s t) ∧
    (∃ t, exec (.andReg x y) s = .next t ∧
      (∀ k, (t.readV x).getLsbD k = ((s.readV x).getLsbD k && (s.readV y).getLsbD k)) ∧
      SameRegsBut [x] s t ∧ OnlyRegs s t ∧ CompletesSeq s t) ∧
    (∃ t, exec (.xorReg x y) s = .next t ∧
      (∀ k, (t.readV x).getLsbD k = ((s.readV x).getLsbD k ^^ (s.readV y).getLsbD k)) ∧
      SameRegsBut [x] s t ∧ OnlyRegs s t ∧ CompletesSeq s t)

/-- `8xy4`: the sum modulo 256 in `Vx` and the carry in `VF`, the flag last when `x = 15` (42_alu R181, R189, decision
D10; pc wrap D6). -/
def Obligations.AddSetsCarry : Prop :=
  ∀ (x y : Reg) (s : State), ∃ t, exec (.addReg x y) s = .next t ∧
    (x ≠ VF → (t.readV x).toNat = ((s.readV x).toNat + (s.readV y).toNat) % 256) ∧
    (t.readV VF).toNat = (if (s.readV x).toNat + (s.readV y).toNat > 255 then 1 else 0) ∧
    SameRegsBut [x, VF] s t ∧ OnlyRegs s t ∧ CompletesSeq s t

/-- `8xy5` and `8xy7`: the difference modulo 256 and the strict comparison of the old values, the flag last (42_alu R181,
R190, R192, decision D10; pc wrap D6). -/
def Obligations.SubtractsSetStrictGreater : Prop :=
  ∀ (x y : Reg) (s : State),
    (∃ t, exec (.sub x y) s = .next t ∧
      (x ≠ VF → (t.readV x).toNat = ((s.readV x).toNat + 256 - (s.readV y).toNat) % 256) ∧
      (t.readV VF).toNat = (if (s.readV x).toNat > (s.readV y).toNat then 1 else 0) ∧
      SameRegsBut [x, VF] s t ∧ OnlyRegs s t ∧ CompletesSeq s t) ∧
    (∃ t, exec (.subn x y) s = .next t ∧
      (x ≠ VF → (t.readV x).toNat = ((s.readV y).toNat + 256 - (s.readV x).toNat) % 256) ∧
      (t.readV VF).toNat = (if (s.readV y).toNat > (s.readV x).toNat then 1 else 0) ∧
      SameRegsBut [x, VF] s t ∧ OnlyRegs s t ∧ CompletesSeq s t)

/-- `8xy6` and `8xyE`: `Vx` shifted by one in both `Vx` and `Vy`, the bit shifted out in `VF`, the flag last (42_alu R181,
R191, R193, decisions D10, D29; pc wrap D6). -/
def Obligations.ShiftsWriteBothRegisters : Prop :=
  ∀ (x y : Reg) (s : State),
    (∃ t, exec (.shr x y) s = .next t ∧
      (x ≠ VF → (t.readV x).toNat = (s.readV x).toNat / 2) ∧ (y ≠ VF → (t.readV y).toNat = (s.readV x).toNat / 2) ∧
      (t.readV VF).toNat = (s.readV x).toNat % 2 ∧
      SameRegsBut [x, y, VF] s t ∧ OnlyRegs s t ∧ CompletesSeq s t) ∧
    (∃ t, exec (.shl x y) s = .next t ∧
      (x ≠ VF → (t.readV x).toNat = (s.readV x).toNat * 2 % 256) ∧
      (y ≠ VF → (t.readV y).toNat = (s.readV x).toNat * 2 % 256) ∧
      (t.readV VF).toNat = (s.readV x).toNat / 128 ∧
      SameRegsBut [x, y, VF] s t ∧ OnlyRegs s t ∧ CompletesSeq s t)

/-- The compatibility mode `SHIFT_WRITES_VY = false`: the shifts leave `Vy` unchanged; the flag is last and the pc advances as in
the default mode (10_state R39, 42_alu R181, R196, 40_dispatch R127, decisions D10, D29; not this hardware's value, log 8;
pc wrap D6, log 10). -/
def Obligations.CompatibilityShiftsLeaveVy : Prop :=
  ∀ (x y : Reg) (s : State),
    (∃ t, execWith { hardware with shiftWritesVy := false } (.shr x y) s = .next t ∧
      (x ≠ VF → (t.readV x).toNat = (s.readV x).toNat / 2) ∧ (t.readV VF).toNat = (s.readV x).toNat % 2 ∧
      SameRegsBut [x, VF] s t ∧ OnlyRegs s t ∧ CompletesSeq s t) ∧
    (∃ t, execWith { hardware with shiftWritesVy := false } (.shl x y) s = .next t ∧
      (x ≠ VF → (t.readV x).toNat = (s.readV x).toNat * 2 % 256) ∧ (t.readV VF).toNat = (s.readV x).toNat / 128 ∧
      SameRegsBut [x, VF] s t ∧ OnlyRegs s t ∧ CompletesSeq s t)

/-- The result `r` in every destination and the flag `f` in `VF`, which the result wins only with `FLAG_LAST = false` where
`VF` is a destination (42_alu R181, decision D10). -/
def EndsFlagged (p : Params) (dests : List Reg) (r f : Byte) (s t : State) : Prop :=
  (∀ q : Reg, q ≠ VF → t.readV q = if q ∈ dests then r else s.readV q) ∧
  t.readV VF = (if p.flagLast = true ∨ VF ∉ dests then f else r) ∧ OnlyRegs s t ∧ CompletesSeq s t

/-- The parameter `FLAG_LAST` decides only what `VF` holds when it is also a destination: for any result and flag, and for
`8xy4`, `8xy5`, `8xy7` and the shifts under any parameters (10_state R39, 42_alu R181, R196, decisions D10, D29; log 8; pc
wrap D6). -/
def Obligations.FlagOrderMattersOnlyForVf : Prop :=
  (∀ (p : Params) (dests : List Reg) (r f : Byte) (s : State), ∃ t, loadFlagged p dests r f s = .next t ∧
    EndsFlagged p dests r f s t) ∧
  ∀ (p : Params) (x y : Reg) (s : State),
    (∃ t, execWith p (.addReg x y) s = .next t ∧ EndsFlagged p [x] (s.readV x + s.readV y)
      (if (s.readV x).toNat + (s.readV y).toNat > 255 then 1 else 0) s t) ∧
    (∃ t, execWith p (.sub x y) s = .next t ∧ EndsFlagged p [x] (s.readV x - s.readV y)
      (if (s.readV x).toNat > (s.readV y).toNat then 1 else 0) s t) ∧
    (∃ t, execWith p (.subn x y) s = .next t ∧ EndsFlagged p [x] (s.readV y - s.readV x)
      (if (s.readV y).toNat > (s.readV x).toNat then 1 else 0) s t) ∧
    (∃ t, execWith p (.shr x y) s = .next t ∧ EndsFlagged p (if p.shiftWritesVy then [x, y] else [x])
      (BitVec.ofNat 8 ((s.readV x).toNat / 2)) (BitVec.ofNat 8 ((s.readV x).toNat % 2)) s t) ∧
    (∃ t, execWith p (.shl x y) s = .next t ∧ EndsFlagged p (if p.shiftWritesVy then [x, y] else [x])
      (BitVec.ofNat 8 ((s.readV x).toNat * 2)) (BitVec.ofNat 8 ((s.readV x).toNat / 128)) s t)

/-- `Cxnn` stores this step's draw masked by `nn`; it consumes exactly one draw: the oldest the host supplied, or the free
byte of the next number when none was (42_alu R194, 10_state R34, decision D23; log 2; pc wrap D6). -/
def Obligations.RandomIsTheMaskedDraw : Prop :=
  ∀ (x : Reg) (nn : Byte) (s : State), ∃ t, exec (.rnd x nn) s = .next t ∧
    (∀ (b : Byte) (rest : List Byte), s.rndIn = b :: rest →
      t.readV x = b &&& nn ∧ t.rndIn = rest ∧ t.rndCount = s.rndCount) ∧
    (s.rndIn = [] → t.readV x = Config.freeRandom s.rndCount &&& nn ∧ t.rndIn = [] ∧ t.rndCount = s.rndCount + 1) ∧
    (∀ k, nn.getLsbD k = false → (t.readV x).getLsbD k = false) ∧
    SameRegsBut [x] s t ∧ CompletesSeq s t ∧
    t = { s with v := t.v, pc := t.pc, status := t.status, rndIn := t.rndIn, rndCount := t.rndCount }

/-! ## Control flow -/

/-- `00EE` takes the last pushed address as the pc, or raises StackUnderflow on the empty stack and changes nothing else
(41_control_flow R141; 10_state R27; decision D4). -/
def Obligations.ReturnPopsIntoPc : Prop :=
  (∀ (s : State) (init : List Addr) (a : Addr), s.stack = init ++ [a] → ∃ t, exec .ret s = .next t ∧
    t.pc.toNat = a.toNat ∧ t.stack = init ∧ t = { s with pc := t.pc, stack := t.stack, status := ⟨.run, .none, 0⟩ }) ∧
  (∀ s : State, s.stack = [] → ∃ t, exec .ret s = .next t ∧ FaultsWith .stackUnderflow 0 s t)

/-- `1nnn` jumps to its target, odd or even (41_control_flow R142, decision D7). -/
def Obligations.JumpTakesItsTarget : Prop :=
  ∀ (nnn : Addr) (s : State), ∃ t, exec (.jp nnn) s = .next t ∧ t.pc.toNat = nnn.toNat ∧ t.status = ⟨.run, .none, 0⟩ ∧
    OnlyPc s t

/-- 41_control_flow R148: `Bnnn` (match 0xB000, mask 0xF000) jumps to `(V0 + nnn) mod 4096`; always `V0`; no flag and no
exception. -/
def Obligations.ComputedJumpAddsV0 : Prop :=
  (∀ op : Word, op &&& 0xF000#16 = 0xB000#16 → decode op = .ok (.jpV0 (fieldNnn op))) ∧
  ∀ (nnn : Addr) (s : State), ∃ t, exec (.jpV0 nnn) s = .next t ∧
    t.pc.toNat = ((s.readV 0).toNat + nnn.toNat) % 4096 ∧ OnlyPc s t ∧ t.status.state ≠ .fault

/-- `2nnn` pushes the address of the next instruction and jumps; with 16 entries it raises StackOverflow(16) and changes
nothing else; under any parameters the bound is `STACK_DEPTH` (41_control_flow R143; 10_state R39; decisions D4, D12,
D13; log 8; wrap of the pushed address D6, log 10). -/
def Obligations.CallPushesTheReturnAddress : Prop :=
  (∀ (nnn : Addr) (s : State), s.stack.length < 16 → ∃ t, exec (.call nnn) s = .next t ∧ t.pc.toNat = nnn.toNat ∧
    (∃ a : Addr, t.stack = s.stack ++ [a] ∧ a.toNat = (s.pc.toNat + 2) % 4096) ∧
    t = { s with pc := t.pc, stack := t.stack, status := ⟨.run, .none, 0⟩ }) ∧
  (∀ (nnn : Addr) (s : State), s.stack.length = 16 → ∃ t, exec (.call nnn) s = .next t ∧
    FaultsWith .stackOverflow 16 s t) ∧
  (∀ (p : Params) (nnn : Addr) (s : State), s.stack.length < p.stackDepth →
    ∃ t, execWith p (.call nnn) s = .next t ∧ t.pc.toNat = nnn.toNat ∧
      (∃ a : Addr, t.stack = s.stack ++ [a] ∧ a.toNat = (s.pc.toNat + 2) % 4096) ∧
      t = { s with pc := t.pc, stack := t.stack, status := ⟨.run, .none, 0⟩ }) ∧
  (∀ (p : Params) (nnn : Addr) (s : State), s.stack.length = p.stackDepth →
    ∃ t, execWith p (.call nnn) s = .next t ∧ FaultsWith .stackOverflow (BitVec.ofNat 16 p.stackDepth) s t)

/-- A return from any state that has the stack a call left comes back to the instruction after the call, with the stack
as before it (41_control_flow R141, R143, decision D12; wrap of the pushed address D6, log 10). -/
def Obligations.CallThenReturnComesBack : Prop :=
  ∀ (nnn : Addr) (s t u : State), s.stack.length < 16 → exec (.call nnn) s = .next t → u.stack = t.stack →
    ∃ w, exec .ret u = .next w ∧ w.pc.toNat = (s.pc.toNat + 2) % 4096 ∧ w.stack = s.stack

/-- The pc after a conditional skip (41_control_flow R140, decision D6). -/
def SkipsIf (c : Prop) (s t : State) : Prop :=
  (c → t.pc.toNat = (s.pc.toNat + 4) % 4096) ∧ (¬ c → t.pc.toNat = (s.pc.toNat + 2) % 4096)

/-- The four skips on registers (41_control_flow R140, R144 to R147; the wrap is decision D6): only `pc` and `status`
change, and there is no exception. -/
def Obligations.RegisterSkips : Prop :=
  ∀ (x y : Reg) (nn : Byte) (s : State),
    (∃ t, exec (.seImm x nn) s = .next t ∧ SkipsIf (s.readV x = nn) s t ∧ OnlyPc s t ∧ t.status = ⟨.run, .none, 0⟩) ∧
    (∃ t, exec (.sneImm x nn) s = .next t ∧ SkipsIf (s.readV x ≠ nn) s t ∧ OnlyPc s t ∧ t.status = ⟨.run, .none, 0⟩) ∧
    (∃ t, exec (.seReg x y) s = .next t ∧ SkipsIf (s.readV x = s.readV y) s t ∧ OnlyPc s t ∧
      t.status = ⟨.run, .none, 0⟩) ∧
    (∃ t, exec (.sneReg x y) s = .next t ∧ SkipsIf (s.readV x ≠ s.readV y) s t ∧ OnlyPc s t ∧
      t.status = ⟨.run, .none, 0⟩)

/-! ## The indexed memory unit -/

/-- 43_index_memory R230: `Annn` (match 0xA000, mask 0xF000) loads `I` with any 12-bit value; no flag, no exception; nothing
else changes but `pc` and `status`. -/
def Obligations.LoadIndexTakesItsAddress : Prop :=
  (∀ op : Word, op &&& 0xF000#16 = 0xA000#16 → decode op = .ok (.ldI (fieldNnn op))) ∧
  ∀ (nnn : Addr) (s : State), ∃ t, exec (.ldI nnn) s = .next t ∧ t.i.toNat = nnn.toNat ∧ OnlyIndex s t ∧
    t.status.state ≠ .fault

/-- `Fx1E` adds modulo 4096 with no flag; `Fx29` gives `5 * Vx`, not reduced for `Vx` above 15 (43_index_memory R231,
R232; decisions D11, D18; C4; pc wrap D6). -/
def Obligations.IndexArithmetic : Prop :=
  ∀ (x : Reg) (s : State),
    (∃ t, exec (.addIVx x) s = .next t ∧ t.i.toNat = (s.i.toNat + (s.readV x).toNat) % 4096 ∧ OnlyIndex s t ∧
      CompletesSeq s t) ∧
    (∃ t, exec (.ldFVx x) s = .next t ∧ t.i.toNat = 5 * (s.readV x).toNat ∧ OnlyIndex s t ∧ CompletesSeq s t)

/-- `Fx33` stores the three decimal digits of `Vx` at `I`, `I+1`, `I+2`, hundreds first; every other byte and element is
unchanged, `I` too (43_index_memory R233; pc wrap D6). -/
def Obligations.BcdStoresDecimalDigits : Prop :=
  ∀ (x : Reg) (s : State), s.mem.wf = true → s.i.toNat ≤ 0xFFD → ∃ t, exec (.ldBVx x) s = .next t ∧
    (s.readV x).toNat = 100 * (t.mem.read s.i.toNat).toNat + 10 * (t.mem.read (s.i.toNat + 1)).toNat +
      (t.mem.read (s.i.toNat + 2)).toNat ∧
    (t.mem.read s.i.toNat).toNat < 10 ∧ (t.mem.read (s.i.toNat + 1)).toNat < 10 ∧
    (t.mem.read (s.i.toNat + 2)).toNat < 10 ∧
    (∀ a : Nat, a < s.i.toNat ∨ s.i.toNat + 2 < a → t.mem.read a = s.mem.read a) ∧
    t = { s with mem := t.mem, pc := t.pc, status := t.status } ∧ CompletesSeq s t

/-- `Fx55` stores `V0..Vx` at `I..I+x` and adds `x + 1` to `I` modulo 4096; every other byte and element is unchanged
(43_index_memory R234; decision D28; pc wrap D6). -/
def Obligations.BlockStoreWritesRegisters : Prop :=
  ∀ (x : Reg) (s : State), s.mem.wf = true → s.i.toNat + x.val ≤ 0xFFF → ∃ t, exec (.stRegs x) s = .next t ∧
    (∀ k : Reg, k.val ≤ x.val → t.mem.read (s.i.toNat + k.val) = s.readV k) ∧
    (∀ a : Nat, a < s.i.toNat ∨ s.i.toNat + x.val < a → t.mem.read a = s.mem.read a) ∧
    t.i.toNat = (s.i.toNat + x.val + 1) % 4096 ∧
    t = { s with mem := t.mem, i := t.i, pc := t.pc, status := t.status } ∧ CompletesSeq s t

/-- `Fx65` loads `V0..Vx` from `I..I+x` and adds `x + 1` to `I` modulo 4096; every other register and element is
unchanged, memory too (43_index_memory R235; decision D28; pc wrap D6). -/
def Obligations.BlockLoadReadsMemory : Prop :=
  ∀ (x : Reg) (s : State), s.i.toNat + x.val ≤ 0xFFF → ∃ t, exec (.ldRegs x) s = .next t ∧
    (∀ k : Reg, t.readV k = if k.val ≤ x.val then s.mem.read (s.i.toNat + k.val) else s.readV k) ∧
    t.i.toNat = (s.i.toNat + x.val + 1) % 4096 ∧ SameMemory s t ∧
    t = { s with v := t.v, i := t.i, pc := t.pc, status := t.status } ∧ CompletesSeq s t

/-- An indexed access that reaches past 0xFFF raises MemoryOutOfRange(0x1000) and changes nothing else: `Fx33`, `Fx55`,
`Fx65` and `Dxyn` (43_index_memory R233 to R235, 44_display R271, 40_dispatch R129, R130; decisions D4, D5). -/
def Obligations.IndexedAccessPastTheTopFaults : Prop :=
  ∀ (x y : Reg) (n : Nibble) (s : State), s.i.toNat < 4096 →
    (0xFFD < s.i.toNat → ∃ t, exec (.ldBVx x) s = .next t ∧ FaultsWith .memoryOutOfRange 0x1000 s t) ∧
    (0xFFF < s.i.toNat + x.val → ∃ t, exec (.stRegs x) s = .next t ∧ FaultsWith .memoryOutOfRange 0x1000 s t) ∧
    (0xFFF < s.i.toNat + x.val → ∃ t, exec (.ldRegs x) s = .next t ∧ FaultsWith .memoryOutOfRange 0x1000 s t) ∧
    (0 < n.toNat → 0xFFF < s.i.toNat + n.toNat - 1 →
      ∃ t, exec (.drw x y n) s = .next t ∧ FaultsWith .memoryOutOfRange 0x1000 s t)

/-- A block load from where a block store wrote gives the stored registers back, whatever else happened to the registers in
between (43_index_memory R234, R235). -/
def Obligations.BlockStoreThenLoadRestores : Prop :=
  ∀ (x : Reg) (s t u : State), s.mem.wf = true → s.i.toNat + x.val ≤ 0xFFF → exec (.stRegs x) s = .next t →
    u.mem = t.mem → u.i = s.i →
    ∃ w, exec (.ldRegs x) u = .next w ∧ ∀ k : Reg, k.val ≤ x.val → w.readV k = s.readV k

/-! ## The display -/

/-- `00E0` clears every pixel and sets `dirty`; no register changes (44_display R270; decision D15; pc wrap D6). -/
def Obligations.ClearClearsEveryPixel : Prop :=
  ∀ s : State, ∃ t, exec .cls s = .next t ∧ (∀ c r, t.disp.pix c r = false) ∧ t.dirty = true ∧ CompletesSeq s t ∧
    t = { s with disp := t.disp, dirty := t.dirty, pc := t.pc, status := t.status }

/-- Whether the sprite of `Dxyn` has a 1 at the pixel `(c, r)`: `dc` columns and `dr` rows from its origin, both wrapped,
inside 8 columns and `n` rows, bit 7 leftmost (44_display R271, R272; decision D14). -/
def spriteCovers (s : State) (x y : Reg) (n : Nibble) (c : Fin 64) (r : Fin 32) : Bool :=
  let dc := (c.val + 64 - (s.readV x).toNat % 64) % 64
  let dr := (r.val + 32 - (s.readV y).toNat % 32) % 32
  decide (dc < 8) && decide (dr < n.toNat) && (s.mem.read (s.i.toNat + dr)).getLsbD (7 - dc)

/-- `Dxyn` in closed form: every pixel is XORed with the sprite, `VF` is 1 exactly when a 1 of the sprite met a set pixel
and 0 otherwise, `dirty` is set, and nothing else changes, `I` and memory included (44_display R271 to R273; decision D14;
pc wrap D6). -/
def Obligations.DrawXorsTheSprite : Prop :=
  ∀ (x y : Reg) (n : Nibble) (s : State), n.toNat = 0 ∨ s.i.toNat + n.toNat - 1 ≤ 0xFFF →
    ∃ t, exec (.drw x y n) s = .next t ∧
      (∀ c r, t.disp.pix c r = (s.disp.pix c r ^^ spriteCovers s x y n c r)) ∧
      (t.readV VF = 1 ↔ ∃ c r, spriteCovers s x y n c r = true ∧ s.disp.pix c r = true) ∧
      (t.readV VF = 0 ∨ t.readV VF = 1) ∧ t.dirty = true ∧ SameRegsBut [VF] s t ∧ CompletesSeq s t ∧
      t = { s with v := t.v, pc := t.pc, disp := t.disp, dirty := t.dirty, status := t.status }

/-- Drawing the same sprite twice at the same place restores the display, and the second draw collides exactly when the
first set a pixel (44_display R271; decision D14). Its coordinates must survive the first draw's flag, so neither register
is `VF`. -/
def Obligations.DrawingTwiceErases : Prop :=
  ∀ (x y : Reg) (n : Nibble) (s t w : State), x ≠ VF → y ≠ VF → n.toNat = 0 ∨ s.i.toNat + n.toNat - 1 ≤ 0xFFF →
    exec (.drw x y n) s = .next t → exec (.drw x y n) t = .next w →
    w.disp = s.disp ∧ (w.readV VF = 1 ↔ ∃ c r, spriteCovers s x y n c r = true ∧ s.disp.pix c r = false)

/-! ## Timers and keys -/

/-- 45_timers_input R300 to R302: `Fx07` (match 0xF007) copies `DT` to `Vx`, `Fx15` (match 0xF015) copies `Vx` to `DT` and
`Fx18` (match 0xF018) copies `Vx` to `ST`, each under mask 0xF0FF; the pc advances by 2 masked to 12 bits; no flag, no
exception, nothing else changes but `status`. -/
def Obligations.TimerMoves : Prop :=
  (∀ op : Word, op &&& 0xF0FF#16 = 0xF007#16 → decode op = .ok (.ldVxDt (fieldX op))) ∧
  (∀ op : Word, op &&& 0xF0FF#16 = 0xF015#16 → decode op = .ok (.ldDtVx (fieldX op))) ∧
  (∀ op : Word, op &&& 0xF0FF#16 = 0xF018#16 → decode op = .ok (.ldStVx (fieldX op))) ∧
  ∀ (x : Reg) (s : State),
    (∃ t, exec (.ldVxDt x) s = .next t ∧ t.readV x = s.dt ∧ t.pc = (s.pc + 2) &&& 0xFFF#16 ∧ SameRegsBut [x] s t ∧
      OnlyRegs s t ∧ t.status.state ≠ .fault) ∧
    (∃ t, exec (.ldDtVx x) s = .next t ∧ t.dt = s.readV x ∧ t.pc = (s.pc + 2) &&& 0xFFF#16 ∧
      t = { s with dt := t.dt, pc := t.pc, status := t.status } ∧ t.status.state ≠ .fault) ∧
    (∃ t, exec (.ldStVx x) s = .next t ∧ t.st = s.readV x ∧ t.pc = (s.pc + 2) &&& 0xFFF#16 ∧
      t = { s with st := t.st, pc := t.pc, status := t.status } ∧ t.status.state ≠ .fault)

/-- `Ex9E` and `ExA1` skip on the key that `Vx` names, and raise KeyIndexOutOfRange(Vx) above 0xF (45_timers_input R303,
R304, R306; decisions D4, D6, D16). -/
def Obligations.KeySkips : Prop :=
  ∀ (x : Reg) (s : State),
    (∀ k : Reg, (s.readV x).toNat = k.val →
      (∃ t, exec (.skp x) s = .next t ∧ SkipsIf (s.key.getLsbD k.val = true) s t ∧ OnlyPc s t ∧
        t.status = ⟨.run, .none, 0⟩) ∧
      (∃ t, exec (.sknp x) s = .next t ∧ SkipsIf (s.key.getLsbD k.val = false) s t ∧ OnlyPc s t ∧
        t.status = ⟨.run, .none, 0⟩)) ∧
    (0xF < (s.readV x).toNat →
      (∃ t, exec (.skp x) s = .next t ∧ FaultsWith .keyIndexOutOfRange ((s.readV x).setWidth 16) s t) ∧
      (∃ t, exec (.sknp x) s = .next t ∧ FaultsWith .keyIndexOutOfRange ((s.readV x).setWidth 16) s t))

/-- `Fx0A`: with a key pressed, the lowest pressed index goes to `Vx` and the pc advances; with none, the step waits and
changes `status` alone. Under any parameters `KEY_WAIT_PICK` chooses among the pressed keys, given the lowest and the
others (45_timers_input R305; 40_dispatch R120; 10_state R39; decisions D3, D17; log 8; pc wrap D6). -/
def Obligations.KeyWaitTakesTheLowestPressed : Prop :=
  (∀ (x k : Reg) (s : State), s.key.getLsbD k.val = true → (∀ j : Reg, j < k → s.key.getLsbD j.val = false) →
    ∃ t, exec (.ldVxK x) s = .next t ∧ (t.readV x).toNat = k.val ∧ SameRegsBut [x] s t ∧ OnlyRegs s t ∧
      CompletesSeq s t) ∧
  (∀ (x : Reg) (s : State), s.key = 0 →
    ∃ t, exec (.ldVxK x) s = .next t ∧ t = { s with status := ⟨.waitKey, .none, 0⟩ }) ∧
  (∀ (p : Params) (x k : Reg) (ks : List Reg) (s : State), (k :: ks).Pairwise (· < ·) →
    (∀ j : Reg, j ∈ k :: ks ↔ s.key.getLsbD j.val = true) →
    ∃ t, execWith p (.ldVxK x) s = .next t ∧ (t.readV x).toNat = (p.keyWaitPick k ks).val ∧ SameRegsBut [x] s t ∧
      OnlyRegs s t ∧ CompletesSeq s t) ∧
  (∀ (p : Params) (x : Reg) (s : State), s.key = 0 →
    ∃ t, execWith p (.ldVxK x) s = .next t ∧ t = { s with status := ⟨.waitKey, .none, 0⟩ })

/-! ## The ports -/

/-- `disp_out` is the buffer in row-major order: bit `r*64 + c` is `Pix(c, r)` (10_state R31, R40; decision D1). -/
def Obligations.DisplayOutputIsRowMajor : Prop :=
  ∀ (d : Display) (c : Fin 64) (r : Fin 32), (dispOut d).getLsbD (r.val * 64 + c.val) = d.pix c r

/-- A boot places the ROM at 0x200 over the reset contents and starts there; an oversized ROM is rejected and no run starts
(70_reset R371, R373; decisions D20, D21; the zeros are DESIGN CHOICE, log 5, log 7; log 19, log 21). -/
def Obligations.BootPlacesTheRom : Prop :=
  (∀ (rom : List Byte) (u : State), rom.length ≤ 3584 → ∃ s, boot hardware rom u = .next s ∧ s.pc = 0x200 ∧
    (∀ k : Nat, k < rom.length → s.mem.read (0x200 + k) = rom.getD k 0) ∧
    s.mem.readList 0 5 = [0xF0, 0x90, 0x90, 0x90, 0xF0] ∧
    (∀ a : Nat, 0x50 ≤ a → a < 0x200 ∨ 0x200 + rom.length ≤ a → s.mem.read a = 0) ∧
    s.stack = [] ∧ s.disp = State.reset.disp ∧ s.status = ⟨.run, .none, 0⟩ ∧ (∀ r : Reg, s.readV r = 0)) ∧
  (∀ (rom : List Byte) (u : State), 3584 < rom.length → boot hardware rom u = .fault (.loadError rom.length))

/-- The reset procedure over its parameters: any font of 80 bytes is the one memory holds at 0x000..0x04F, and with
`RESET_ZERO = false` the elements the source gives no value keep an arbitrary one (70_reset R371; 00_scope R5; decisions
D19, D20; log 5, log 6). -/
def Obligations.ResetFollowsItsParameters : Prop :=
  ∀ (p : Params) (u : State), p.wellFormed = true → u.mem.wf = true →
    (∀ k : Nat, k < 80 → (resetMachine p u).mem.read k = p.font.getD k 0) ∧
    (resetMachine p u).pc = 0x200 ∧ (∀ c r, (resetMachine p u).disp.pix c r = false) ∧
    (resetMachine p u).status = ⟨.run, .none, 0⟩ ∧
    (p.resetZero = false → (resetMachine p u).v = u.v ∧ (resetMachine p u).i = u.i ∧ (resetMachine p u).stack = u.stack ∧
      (resetMachine p u).key = u.key ∧ ∀ a : Nat, 80 ≤ a → (resetMachine p u).mem.read a = u.mem.read a)

/-- The disassembler prints one line for every two bytes, a trailing byte ignored, each line that of the word at its offset
with the address `0x200 + offset` (30_encoding R106, R108; decision D26; log 24). -/
def Obligations.DisassemblerPrintsOneLineAnOpcode : Prop :=
  ∀ (withAddress : Bool) (rom : List Byte),
    (disassemble withAddress rom).length = rom.length / 2 ∧
    ∀ k : Nat, k < rom.length / 2 → (disassemble withAddress rom)[k]? =
      some (disassembleLine withAddress (0x200 + 2 * k) (bigEndian (rom.getD (2 * k) 0) (rom.getD (2 * k + 1) 0)))

/-! ## The parameters -/

/-- `exec`, `step` and the ports are the machine over its parameters at this hardware's values, and a parameter reaches only
what names it: an instruction that reads none is the same under all, `2nnn` depends on `STACK_DEPTH` alone, `8xy4`, `8xy5`
and `8xy7` on `FLAG_LAST`, the shifts on `FLAG_LAST` and `SHIFT_WRITES_VY`, `Fx0A` on `KEY_WAIT_PICK`; `FONT` and
`RESET_ZERO` reach no step (10_state R39, 00_scope R5; the default values are log 8). -/
def Obligations.ParametersReachOnlyWhatNamesThem : Prop :=
  (∀ (i : Instr) (s : State), execWith hardware i s = exec i s) ∧
  (∀ s : State, stepWith hardware s = step s ∧ ∀ loading, applyEvent loading .step s = step s) ∧
  (∀ (p : Params) (i : Instr) (s : State), readsParams i = false → execWith p i s = exec i s) ∧
  ∀ (p q : Params) (s : State),
    (p.stackDepth = q.stackDepth → ∀ nnn : Addr, execWith p (.call nnn) s = execWith q (.call nnn) s) ∧
    (p.flagLast = q.flagLast → ∀ x y : Reg, execWith p (.addReg x y) s = execWith q (.addReg x y) s ∧
      execWith p (.sub x y) s = execWith q (.sub x y) s ∧ execWith p (.subn x y) s = execWith q (.subn x y) s) ∧
    (p.flagLast = q.flagLast → p.shiftWritesVy = q.shiftWritesVy → ∀ x y : Reg,
      execWith p (.shr x y) s = execWith q (.shr x y) s ∧ execWith p (.shl x y) s = execWith q (.shl x y) s) ∧
    (p.keyWaitPick = q.keyWaitPick → ∀ x : Reg, execWith p (.ldVxK x) s = execWith q (.ldVxK x) s) ∧
    (∀ (font : List Byte) (z : Bool), stepWith { p with font := font, resetZero := z } s = stepWith p s)
end

