-- ==== Sys2Proof/Laws/Decode.lean ====
section
/-! SUPPORT. The small lemmas of the encoding: each format as a number, each field as arithmetic on the word's number, and
from the two what each field of each format reads. -/

namespace Sys2Proof

/-! ## Formats and fields as numbers -/

/-- A concatenation as a number. -/
theorem append_number {m n : Nat} (a : BitVec m) (b : BitVec n) : (a ++ b).toNat = a.toNat * 2 ^ n + b.toNat := by
  rw [BitVec.toNat_append, ← Nat.shiftLeft_add_eq_or_of_lt b.isLt, Nat.shiftLeft_eq]

theorem regBits_number (x : Reg) : (regBits x).toNat = x.val := by
  simp [regBits]

/-- Format `NNN`. -/
theorem formatNnn_number (f : Nibble) (a : Addr) : (formatNnn f a).toNat = f.toNat * 4096 + a.toNat :=
  append_number f a

/-- Format `XNN`. -/
theorem formatXnn_number (f : Nibble) (x : Reg) (nn : Byte) :
    (formatXnn f x nn).toNat = f.toNat * 4096 + (x.val * 256 + nn.toNat) := by
  have h : (formatXnn f x nn).toNat = f.toNat * 2 ^ (4 + 8) + (regBits x ++ nn).toNat := append_number f (regBits x ++ nn)
  rw [h, append_number, regBits_number]; omega

/-- Formats `XY` and `XYN`. -/
theorem formatXyn_number (f : Nibble) (x y : Reg) (n : Nibble) :
    (formatXyn f x y n).toNat = f.toNat * 4096 + (x.val * 256 + (y.val * 16 + n.toNat)) := by
  have h : (formatXyn f x y n).toNat = f.toNat * 2 ^ (4 + (4 + 4)) + (regBits x ++ (regBits y ++ n)).toNat :=
    append_number f (regBits x ++ (regBits y ++ n))
  rw [h, append_number, append_number, regBits_number, regBits_number]; omega

theorem fieldF_number (op : Word) : (fieldF op).toNat = op.toNat / 4096 := by
  have := op.isLt
  simp [fieldF, BitVec.extractLsb'_toNat, Nat.shiftRight_eq_div_pow]; omega

theorem fieldX_number (op : Word) : (fieldX op).val = op.toNat / 256 % 16 := by
  have h : (fieldX op).val = (op.extractLsb' 8 4).toNat := rfl
  simp [h, BitVec.extractLsb'_toNat, Nat.shiftRight_eq_div_pow]

theorem fieldY_number (op : Word) : (fieldY op).val = op.toNat / 16 % 16 := by
  have h : (fieldY op).val = (op.extractLsb' 4 4).toNat := rfl
  simp [h, BitVec.extractLsb'_toNat, Nat.shiftRight_eq_div_pow]

theorem fieldN_number (op : Word) : (fieldN op).toNat = op.toNat % 16 := by
  simp [fieldN]

theorem fieldNn_number (op : Word) : (fieldNn op).toNat = op.toNat % 256 := by
  simp [fieldNn]

theorem fieldNnn_number (op : Word) : (fieldNnn op).toNat = op.toNat % 4096 := by
  simp [fieldNnn]

/-! ## What each field of each format reads -/

@[simp] theorem fieldF_formatNnn (f : Nibble) (a : Addr) : fieldF (formatNnn f a) = f := by
  apply BitVec.eq_of_toNat_eq; rw [fieldF_number, formatNnn_number]; omega

@[simp] theorem fieldNnn_formatNnn (f : Nibble) (a : Addr) : fieldNnn (formatNnn f a) = a := by
  apply BitVec.eq_of_toNat_eq; rw [fieldNnn_number, formatNnn_number]; omega

@[simp] theorem fieldF_formatXnn (f : Nibble) (x : Reg) (nn : Byte) : fieldF (formatXnn f x nn) = f := by
  apply BitVec.eq_of_toNat_eq; rw [fieldF_number, formatXnn_number]; omega

@[simp] theorem fieldX_formatXnn (f : Nibble) (x : Reg) (nn : Byte) : fieldX (formatXnn f x nn) = x := by
  apply Fin.ext; rw [fieldX_number, formatXnn_number]; omega

@[simp] theorem fieldNn_formatXnn (f : Nibble) (x : Reg) (nn : Byte) : fieldNn (formatXnn f x nn) = nn := by
  apply BitVec.eq_of_toNat_eq; rw [fieldNn_number, formatXnn_number]; omega

@[simp] theorem fieldF_formatXyn (f : Nibble) (x y : Reg) (n : Nibble) : fieldF (formatXyn f x y n) = f := by
  apply BitVec.eq_of_toNat_eq; rw [fieldF_number, formatXyn_number]; omega

@[simp] theorem fieldX_formatXyn (f : Nibble) (x y : Reg) (n : Nibble) : fieldX (formatXyn f x y n) = x := by
  apply Fin.ext; rw [fieldX_number, formatXyn_number]; omega

@[simp] theorem fieldY_formatXyn (f : Nibble) (x y : Reg) (n : Nibble) : fieldY (formatXyn f x y n) = y := by
  apply Fin.ext; rw [fieldY_number, formatXyn_number]; omega

@[simp] theorem fieldN_formatXyn (f : Nibble) (x y : Reg) (n : Nibble) : fieldN (formatXyn f x y n) = n := by
  apply BitVec.eq_of_toNat_eq; rw [fieldN_number, formatXyn_number]; omega

/-! ## A word selected by match and mask -/

/-- A mask that keeps the family gives the family of the pattern (30_encoding R95). -/
theorem fieldF_of_mask {op m p : Word} (h : op &&& m = p) (hm : fieldF m = 0xF) : fieldF op = fieldF p := by
  subst h
  unfold fieldF at *
  rw [BitVec.extractLsb'_and, hm]
  exact (BitVec.and_allOnes (x := op.extractLsb' 12 4)).symm

/-- A mask that keeps the low byte gives the low byte of the pattern (30_encoding R95). -/
theorem fieldNn_of_mask {op m p : Word} (h : op &&& m = p) (hm : fieldNn m = 0xFF) : fieldNn op = fieldNn p := by
  subst h
  unfold fieldNn at *
  rw [BitVec.extractLsb'_and, hm]
  exact (BitVec.and_allOnes (x := op.extractLsb' 0 8)).symm

/-- A mask that keeps the low nibble gives the low nibble of the pattern (30_encoding R95). -/
theorem fieldN_of_mask {op m p : Word} (h : op &&& m = p) (hm : fieldN m = 0xF) : fieldN op = fieldN p := by
  subst h
  unfold fieldN at *
  rw [BitVec.extractLsb'_and, hm]
  exact (BitVec.and_allOnes (x := op.extractLsb' 0 4)).symm

/-! ## Bytes and words -/

theorem bigEndian_number (hi lo : Byte) : (bigEndian hi lo).toNat = hi.toNat * 256 + lo.toNat := append_number hi lo

theorem highByte_number (op : Word) : (highByte op).toNat = op.toNat / 256 := by
  have := op.isLt
  simp [highByte, BitVec.extractLsb'_toNat, Nat.shiftRight_eq_div_pow]; omega

theorem lowByte_number (op : Word) : (lowByte op).toNat = op.toNat % 256 := by
  simp [lowByte]

/-- Splitting a word into its bytes and putting them together gives the word (20_memory R64, R65). -/
@[simp] theorem bigEndian_bytes (op : Word) : bigEndian (highByte op) (lowByte op) = op := by
  apply BitVec.eq_of_toNat_eq; rw [bigEndian_number, highByte_number, lowByte_number]; omega

/-! ## The descriptor of a word, field by field (30_encoding R104) -/

@[simp] theorem classify_kind (op : Word) : (classify op).kind = kindOf op := rfl
@[simp] theorem classify_f (op : Word) : (classify op).f = fieldF op := rfl
@[simp] theorem classify_x (op : Word) : (classify op).x = fieldX op := rfl
@[simp] theorem classify_y (op : Word) : (classify op).y = fieldY op := rfl
@[simp] theorem classify_n (op : Word) : (classify op).n = fieldN op := rfl
@[simp] theorem classify_nn (op : Word) : (classify op).nn = fieldNn op := rfl
@[simp] theorem classify_nnn (op : Word) : (classify op).nnn = fieldNnn op := rfl

/-- What `decode` answers, said once: an instruction exactly when the classifier's descriptor names one. -/
theorem decode_eq_ok {op : Word} {i : Instr} : decode op = .ok i ↔ (classify op).instr = some i := by
  unfold decode
  cases h : (classify op).instr <;> simp

/-- `decode` rejects a word by its own name or not at all. -/
theorem decode_eq_error {op : Word} {e : DecodeError} :
    decode op = .error e ↔ (classify op).instr = none ∧ e = .unknownOpcode op := by
  unfold decode
  cases h : (classify op).instr <;> simp [eq_comm]

/-- A descriptor names an instruction unless its kind is UNKNOWN. -/
theorem Descriptor.instr_eq_none {d : Descriptor} : d.instr = none ↔ d.kind = .unknown := by
  unfold Descriptor.instr
  cases d.kind <;> simp

/-- The instruction a descriptor names has the descriptor's kind. -/
theorem Descriptor.kind_of_instr {d : Descriptor} {i : Instr} (h : d.instr = some i) : i.kind = d.kind := by
  unfold Descriptor.instr at h
  cases hk : d.kind <;> rw [hk] at h <;> simp at h <;> subst h <;> rfl

end Sys2Proof
end

