-- ==== Sys2Proof/Laws/Memory.lean ====
section
/-! SUPPORT. The laws of memory: every write keeps the canonical form, a read after a write, and equal reads give equal
memories. -/

namespace Sys2Proof.Machine

/-- What the canonical form says of a listed cell and of the rest. -/
theorem Memory.wfFrom_cons (low a : Nat) (w : Byte) (m : Memory) :
    Memory.wfFrom low ((a, w) :: m) = true ↔
      low ≤ a ∧ a < 4096 ∧ w ≠ Memory.unlisted a ∧ Memory.wfFrom (a + 1) m = true := by
  simp [Memory.wfFrom, and_assoc]

/-- A smaller bound is weaker. -/
theorem Memory.wfFrom_mono {low low' : Nat} {m : Memory} (h : Memory.wfFrom low m = true) (hl : low' ≤ low) :
    Memory.wfFrom low' m = true := by
  cases m with
  | nil => rfl
  | cons c m => obtain ⟨a, w⟩ := c; rw [Memory.wfFrom_cons] at h ⊢; exact ⟨by omega, h.2⟩

/-- Below its bound a canonical memory lists nothing. -/
theorem Memory.read_below {low a : Nat} {m : Memory} (h : Memory.wfFrom low m = true) (ha : a < low) :
    m.read a = Memory.unlisted a := by
  induction m generalizing low with
  | nil => rfl
  | cons c m ih =>
    obtain ⟨b, w⟩ := c
    rw [Memory.wfFrom_cons] at h
    rw [Memory.read, if_neg (by omega), ih h.2.2.2 (by omega)]

/-- A write keeps the canonical form. -/
theorem Memory.wfFrom_write {low a : Nat} {m : Memory} (w : Byte) (h : Memory.wfFrom low m = true) (hl : low ≤ a)
    (ha : a < 4096) : Memory.wfFrom low (m.write a w) = true := by
  induction m generalizing low with
  | nil =>
    rw [Memory.write]
    split
    · rfl
    · rw [Memory.wfFrom_cons]; exact ⟨hl, ha, by assumption, rfl⟩
  | cons c m ih =>
    obtain ⟨b, u⟩ := c
    have h' := h
    rw [Memory.wfFrom_cons] at h'
    obtain ⟨h1, h2, h3, h4⟩ := h'
    rw [Memory.write]
    split
    · split
      · exact h
      · rw [Memory.wfFrom_cons, Memory.wfFrom_cons]
        exact ⟨hl, ha, by assumption, by omega, h2, h3, h4⟩
    · split
      · split
        · exact Memory.wfFrom_mono h4 (by omega)
        · rw [Memory.wfFrom_cons]; subst a; exact ⟨h1, h2, by assumption, h4⟩
      · rw [Memory.wfFrom_cons]; exact ⟨h1, h2, h3, ih h4 (by omega)⟩

/-- A read after a write. -/
theorem Memory.read_write_from {low : Nat} {m : Memory} (a b : Nat) (w : Byte) (h : Memory.wfFrom low m = true) :
    (m.write a w).read b = if b = a then w else m.read b := by
  induction m generalizing low with
  | nil =>
    rw [Memory.write]
    split
    · split <;> simp_all [Memory.read]
    · simp [Memory.read]
  | cons c m ih =>
    obtain ⟨e, u⟩ := c
    rw [Memory.wfFrom_cons] at h
    obtain ⟨-, -, -, h4⟩ := h
    rw [Memory.write]
    split
    · split
      · split
        · subst b
          rw [Memory.read, if_neg (by omega), Memory.read_below h4 (by omega)]; exact Eq.symm (by assumption)
        · rfl
      · simp [Memory.read]
    · split
      · subst a
        split
        · by_cases hb : b = e
          · subst hb; simp_all [Memory.read_below h4 (Nat.lt_succ_self b)]
          · simp [Memory.read, hb]
        · by_cases hb : b = e <;> simp [Memory.read, hb]
      · rw [Memory.read, ih h4, Memory.read]
        split <;> split <;> simp_all

/-- A write keeps the canonical form of memory. -/
theorem Memory.wf_write {m : Memory} {a : Nat} (w : Byte) (h : m.wf = true) (ha : a < 4096) :
    (m.write a w).wf = true :=
  Memory.wfFrom_write w h (Nat.zero_le a) ha

/-- A read after a write: the byte written at its address, every other byte as before. -/
theorem Memory.read_write {m : Memory} (a b : Nat) (w : Byte) (h : m.wf = true) :
    (m.write a w).read b = if b = a then w else m.read b :=
  Memory.read_write_from a b w h

/-- Writing a list keeps the canonical form. -/
theorem Memory.wf_writeList {m : Memory} {base : Nat} (bs : List Byte) (h : m.wf = true) (hb : base + bs.length ≤ 4096) :
    (m.writeList base bs).wf = true := by
  induction bs generalizing m base with
  | nil => exact h
  | cons b bs ih =>
    simp only [List.length_cons] at hb
    exact ih (Memory.wf_write b h (by omega)) (by omega)

/-- A read after the write of a list: the listed bytes in order, every other byte as before. -/
theorem Memory.read_writeList {m : Memory} {base : Nat} (a : Nat) (bs : List Byte) (h : m.wf = true)
    (hb : base + bs.length ≤ 4096) :
    (m.writeList base bs).read a = if base ≤ a ∧ a < base + bs.length then bs.getD (a - base) 0 else m.read a := by
  induction bs generalizing m base with
  | nil => simp only [Memory.writeList, List.length_nil]; rw [if_neg (by omega)]
  | cons b bs ih =>
    simp only [List.length_cons] at hb ⊢
    rw [Memory.writeList, ih (Memory.wf_write b h (by omega)) (by omega), Memory.read_write _ _ _ h]
    by_cases h1 : a = base
    · subst h1
      rw [if_neg (by omega), if_pos rfl, if_pos (by omega)]
      simp
    · by_cases h2 : base + 1 ≤ a ∧ a < base + 1 + bs.length
      · rw [if_pos h2, if_pos (by omega), show a - base = (a - (base + 1)) + 1 by omega]
        rfl
      · rw [if_neg h2, if_neg h1, if_neg (by omega)]

/-- The length of a list read. -/
@[simp] theorem Memory.readList_length (m : Memory) (base n : Nat) : (m.readList base n).length = n := by
  induction n generalizing base with
  | zero => rfl
  | succ n ih => simp [Memory.readList, ih]

/-- The bytes of a list read. -/
theorem Memory.readList_getD (m : Memory) (base n k : Nat) (hk : k < n) :
    (m.readList base n).getD k 0 = m.read (base + k) := by
  induction n generalizing base k with
  | zero => omega
  | succ n ih =>
    cases k with
    | zero => simp [Memory.readList]
    | succ k =>
      rw [Memory.readList, List.getD_cons_succ, ih (base + 1) k (by omega)]
      congr 1; omega

end Sys2Proof.Machine
end

