-- ==== Sys2Proof/Laws/State.lean ====
section
/-! SUPPORT. One lemma per field per update of the state, so that no later proof unfolds a record update. -/

namespace Sys2Proof.Machine

@[simp] theorem State.writeV_v (s : State) (x : Reg) (b : Byte) : (s.writeV x b).v = s.v.set x b := rfl
@[simp] theorem State.writeV_pc (s : State) (x : Reg) (b : Byte) : (s.writeV x b).pc = s.pc := rfl
@[simp] theorem State.writeV_i (s : State) (x : Reg) (b : Byte) : (s.writeV x b).i = s.i := rfl
@[simp] theorem State.writeV_dt (s : State) (x : Reg) (b : Byte) : (s.writeV x b).dt = s.dt := rfl
@[simp] theorem State.writeV_st (s : State) (x : Reg) (b : Byte) : (s.writeV x b).st = s.st := rfl
@[simp] theorem State.writeV_stack (s : State) (x : Reg) (b : Byte) : (s.writeV x b).stack = s.stack := rfl
@[simp] theorem State.writeV_mem (s : State) (x : Reg) (b : Byte) : (s.writeV x b).mem = s.mem := rfl
@[simp] theorem State.writeV_key (s : State) (x : Reg) (b : Byte) : (s.writeV x b).key = s.key := rfl
@[simp] theorem State.writeV_disp (s : State) (x : Reg) (b : Byte) : (s.writeV x b).disp = s.disp := rfl
@[simp] theorem State.writeV_dirty (s : State) (x : Reg) (b : Byte) : (s.writeV x b).dirty = s.dirty := rfl
@[simp] theorem State.writeV_curOp (s : State) (x : Reg) (b : Byte) : (s.writeV x b).curOp = s.curOp := rfl
@[simp] theorem State.writeV_status (s : State) (x : Reg) (b : Byte) : (s.writeV x b).status = s.status := rfl
@[simp] theorem State.writeV_rndIn (s : State) (x : Reg) (b : Byte) : (s.writeV x b).rndIn = s.rndIn := rfl
@[simp] theorem State.writeV_rndCount (s : State) (x : Reg) (b : Byte) : (s.writeV x b).rndCount = s.rndCount := rfl

@[simp] theorem State.writeI_v (s : State) (a : Word) : (s.writeI a).v = s.v := rfl
@[simp] theorem State.writeI_pc (s : State) (a : Word) : (s.writeI a).pc = s.pc := rfl
@[simp] theorem State.writeI_i (s : State) (a : Word) : (s.writeI a).i = mask12 a := rfl
@[simp] theorem State.writeI_dt (s : State) (a : Word) : (s.writeI a).dt = s.dt := rfl
@[simp] theorem State.writeI_st (s : State) (a : Word) : (s.writeI a).st = s.st := rfl
@[simp] theorem State.writeI_stack (s : State) (a : Word) : (s.writeI a).stack = s.stack := rfl
@[simp] theorem State.writeI_mem (s : State) (a : Word) : (s.writeI a).mem = s.mem := rfl
@[simp] theorem State.writeI_key (s : State) (a : Word) : (s.writeI a).key = s.key := rfl
@[simp] theorem State.writeI_disp (s : State) (a : Word) : (s.writeI a).disp = s.disp := rfl
@[simp] theorem State.writeI_dirty (s : State) (a : Word) : (s.writeI a).dirty = s.dirty := rfl
@[simp] theorem State.writeI_curOp (s : State) (a : Word) : (s.writeI a).curOp = s.curOp := rfl
@[simp] theorem State.writeI_status (s : State) (a : Word) : (s.writeI a).status = s.status := rfl
@[simp] theorem State.writeI_rndIn (s : State) (a : Word) : (s.writeI a).rndIn = s.rndIn := rfl
@[simp] theorem State.writeI_rndCount (s : State) (a : Word) : (s.writeI a).rndCount = s.rndCount := rfl

@[simp] theorem State.writePc_v (s : State) (a : Word) : (s.writePc a).v = s.v := rfl
@[simp] theorem State.writePc_pc (s : State) (a : Word) : (s.writePc a).pc = mask12 a := rfl
@[simp] theorem State.writePc_i (s : State) (a : Word) : (s.writePc a).i = s.i := rfl
@[simp] theorem State.writePc_dt (s : State) (a : Word) : (s.writePc a).dt = s.dt := rfl
@[simp] theorem State.writePc_st (s : State) (a : Word) : (s.writePc a).st = s.st := rfl
@[simp] theorem State.writePc_stack (s : State) (a : Word) : (s.writePc a).stack = s.stack := rfl
@[simp] theorem State.writePc_mem (s : State) (a : Word) : (s.writePc a).mem = s.mem := rfl
@[simp] theorem State.writePc_key (s : State) (a : Word) : (s.writePc a).key = s.key := rfl
@[simp] theorem State.writePc_disp (s : State) (a : Word) : (s.writePc a).disp = s.disp := rfl
@[simp] theorem State.writePc_dirty (s : State) (a : Word) : (s.writePc a).dirty = s.dirty := rfl
@[simp] theorem State.writePc_curOp (s : State) (a : Word) : (s.writePc a).curOp = s.curOp := rfl
@[simp] theorem State.writePc_status (s : State) (a : Word) : (s.writePc a).status = s.status := rfl
@[simp] theorem State.writePc_rndIn (s : State) (a : Word) : (s.writePc a).rndIn = s.rndIn := rfl
@[simp] theorem State.writePc_rndCount (s : State) (a : Word) : (s.writePc a).rndCount = s.rndCount := rfl

@[simp] theorem State.writeDt_v (s : State) (b : Byte) : (s.writeDt b).v = s.v := rfl
@[simp] theorem State.writeDt_pc (s : State) (b : Byte) : (s.writeDt b).pc = s.pc := rfl
@[simp] theorem State.writeDt_i (s : State) (b : Byte) : (s.writeDt b).i = s.i := rfl
@[simp] theorem State.writeDt_dt (s : State) (b : Byte) : (s.writeDt b).dt = b := rfl
@[simp] theorem State.writeDt_st (s : State) (b : Byte) : (s.writeDt b).st = s.st := rfl
@[simp] theorem State.writeDt_stack (s : State) (b : Byte) : (s.writeDt b).stack = s.stack := rfl
@[simp] theorem State.writeDt_mem (s : State) (b : Byte) : (s.writeDt b).mem = s.mem := rfl
@[simp] theorem State.writeDt_key (s : State) (b : Byte) : (s.writeDt b).key = s.key := rfl
@[simp] theorem State.writeDt_disp (s : State) (b : Byte) : (s.writeDt b).disp = s.disp := rfl
@[simp] theorem State.writeDt_dirty (s : State) (b : Byte) : (s.writeDt b).dirty = s.dirty := rfl
@[simp] theorem State.writeDt_curOp (s : State) (b : Byte) : (s.writeDt b).curOp = s.curOp := rfl
@[simp] theorem State.writeDt_status (s : State) (b : Byte) : (s.writeDt b).status = s.status := rfl
@[simp] theorem State.writeDt_rndIn (s : State) (b : Byte) : (s.writeDt b).rndIn = s.rndIn := rfl
@[simp] theorem State.writeDt_rndCount (s : State) (b : Byte) : (s.writeDt b).rndCount = s.rndCount := rfl

@[simp] theorem State.writeSt_v (s : State) (b : Byte) : (s.writeSt b).v = s.v := rfl
@[simp] theorem State.writeSt_pc (s : State) (b : Byte) : (s.writeSt b).pc = s.pc := rfl
@[simp] theorem State.writeSt_i (s : State) (b : Byte) : (s.writeSt b).i = s.i := rfl
@[simp] theorem State.writeSt_dt (s : State) (b : Byte) : (s.writeSt b).dt = s.dt := rfl
@[simp] theorem State.writeSt_st (s : State) (b : Byte) : (s.writeSt b).st = b := rfl
@[simp] theorem State.writeSt_stack (s : State) (b : Byte) : (s.writeSt b).stack = s.stack := rfl
@[simp] theorem State.writeSt_mem (s : State) (b : Byte) : (s.writeSt b).mem = s.mem := rfl
@[simp] theorem State.writeSt_key (s : State) (b : Byte) : (s.writeSt b).key = s.key := rfl
@[simp] theorem State.writeSt_disp (s : State) (b : Byte) : (s.writeSt b).disp = s.disp := rfl
@[simp] theorem State.writeSt_dirty (s : State) (b : Byte) : (s.writeSt b).dirty = s.dirty := rfl
@[simp] theorem State.writeSt_curOp (s : State) (b : Byte) : (s.writeSt b).curOp = s.curOp := rfl
@[simp] theorem State.writeSt_status (s : State) (b : Byte) : (s.writeSt b).status = s.status := rfl
@[simp] theorem State.writeSt_rndIn (s : State) (b : Byte) : (s.writeSt b).rndIn = s.rndIn := rfl
@[simp] theorem State.writeSt_rndCount (s : State) (b : Byte) : (s.writeSt b).rndCount = s.rndCount := rfl

@[simp] theorem State.writeCurOp_v (s : State) (op : Word) : (s.writeCurOp op).v = s.v := rfl
@[simp] theorem State.writeCurOp_pc (s : State) (op : Word) : (s.writeCurOp op).pc = s.pc := rfl
@[simp] theorem State.writeCurOp_i (s : State) (op : Word) : (s.writeCurOp op).i = s.i := rfl
@[simp] theorem State.writeCurOp_dt (s : State) (op : Word) : (s.writeCurOp op).dt = s.dt := rfl
@[simp] theorem State.writeCurOp_st (s : State) (op : Word) : (s.writeCurOp op).st = s.st := rfl
@[simp] theorem State.writeCurOp_stack (s : State) (op : Word) : (s.writeCurOp op).stack = s.stack := rfl
@[simp] theorem State.writeCurOp_mem (s : State) (op : Word) : (s.writeCurOp op).mem = s.mem := rfl
@[simp] theorem State.writeCurOp_key (s : State) (op : Word) : (s.writeCurOp op).key = s.key := rfl
@[simp] theorem State.writeCurOp_disp (s : State) (op : Word) : (s.writeCurOp op).disp = s.disp := rfl
@[simp] theorem State.writeCurOp_dirty (s : State) (op : Word) : (s.writeCurOp op).dirty = s.dirty := rfl
@[simp] theorem State.writeCurOp_curOp (s : State) (op : Word) : (s.writeCurOp op).curOp = op := rfl
@[simp] theorem State.writeCurOp_status (s : State) (op : Word) : (s.writeCurOp op).status = s.status := rfl
@[simp] theorem State.writeCurOp_rndIn (s : State) (op : Word) : (s.writeCurOp op).rndIn = s.rndIn := rfl
@[simp] theorem State.writeCurOp_rndCount (s : State) (op : Word) : (s.writeCurOp op).rndCount = s.rndCount := rfl

@[simp] theorem State.seq_v (s : State) : (s.seq).v = s.v := rfl
@[simp] theorem State.seq_pc (s : State) : (s.seq).pc = mask12 (s.pc + 2) := rfl
@[simp] theorem State.seq_i (s : State) : (s.seq).i = s.i := rfl
@[simp] theorem State.seq_dt (s : State) : (s.seq).dt = s.dt := rfl
@[simp] theorem State.seq_st (s : State) : (s.seq).st = s.st := rfl
@[simp] theorem State.seq_stack (s : State) : (s.seq).stack = s.stack := rfl
@[simp] theorem State.seq_mem (s : State) : (s.seq).mem = s.mem := rfl
@[simp] theorem State.seq_key (s : State) : (s.seq).key = s.key := rfl
@[simp] theorem State.seq_disp (s : State) : (s.seq).disp = s.disp := rfl
@[simp] theorem State.seq_dirty (s : State) : (s.seq).dirty = s.dirty := rfl
@[simp] theorem State.seq_curOp (s : State) : (s.seq).curOp = s.curOp := rfl
@[simp] theorem State.seq_status (s : State) : (s.seq).status = s.status := rfl
@[simp] theorem State.seq_rndIn (s : State) : (s.seq).rndIn = s.rndIn := rfl
@[simp] theorem State.seq_rndCount (s : State) : (s.seq).rndCount = s.rndCount := rfl

@[simp] theorem State.writeDisp_v (s : State) (d : Display) : (s.writeDisp d).v = s.v := rfl
@[simp] theorem State.writeDisp_pc (s : State) (d : Display) : (s.writeDisp d).pc = s.pc := rfl
@[simp] theorem State.writeDisp_i (s : State) (d : Display) : (s.writeDisp d).i = s.i := rfl
@[simp] theorem State.writeDisp_dt (s : State) (d : Display) : (s.writeDisp d).dt = s.dt := rfl
@[simp] theorem State.writeDisp_st (s : State) (d : Display) : (s.writeDisp d).st = s.st := rfl
@[simp] theorem State.writeDisp_stack (s : State) (d : Display) : (s.writeDisp d).stack = s.stack := rfl
@[simp] theorem State.writeDisp_mem (s : State) (d : Display) : (s.writeDisp d).mem = s.mem := rfl
@[simp] theorem State.writeDisp_key (s : State) (d : Display) : (s.writeDisp d).key = s.key := rfl
@[simp] theorem State.writeDisp_disp (s : State) (d : Display) : (s.writeDisp d).disp = d := rfl
@[simp] theorem State.writeDisp_dirty (s : State) (d : Display) : (s.writeDisp d).dirty = true := rfl
@[simp] theorem State.writeDisp_curOp (s : State) (d : Display) : (s.writeDisp d).curOp = s.curOp := rfl
@[simp] theorem State.writeDisp_status (s : State) (d : Display) : (s.writeDisp d).status = s.status := rfl
@[simp] theorem State.writeDisp_rndIn (s : State) (d : Display) : (s.writeDisp d).rndIn = s.rndIn := rfl
@[simp] theorem State.writeDisp_rndCount (s : State) (d : Display) : (s.writeDisp d).rndCount = s.rndCount := rfl

@[simp] theorem State.writeBlock_v (s : State) (bs : List Byte) : (s.writeBlock bs).v = setRegsFrom s.v 0 bs := rfl
@[simp] theorem State.writeBlock_pc (s : State) (bs : List Byte) : (s.writeBlock bs).pc = s.pc := rfl
@[simp] theorem State.writeBlock_i (s : State) (bs : List Byte) : (s.writeBlock bs).i = s.i := rfl
@[simp] theorem State.writeBlock_dt (s : State) (bs : List Byte) : (s.writeBlock bs).dt = s.dt := rfl
@[simp] theorem State.writeBlock_st (s : State) (bs : List Byte) : (s.writeBlock bs).st = s.st := rfl
@[simp] theorem State.writeBlock_stack (s : State) (bs : List Byte) : (s.writeBlock bs).stack = s.stack := rfl
@[simp] theorem State.writeBlock_mem (s : State) (bs : List Byte) : (s.writeBlock bs).mem = s.mem := rfl
@[simp] theorem State.writeBlock_key (s : State) (bs : List Byte) : (s.writeBlock bs).key = s.key := rfl
@[simp] theorem State.writeBlock_disp (s : State) (bs : List Byte) : (s.writeBlock bs).disp = s.disp := rfl
@[simp] theorem State.writeBlock_dirty (s : State) (bs : List Byte) : (s.writeBlock bs).dirty = s.dirty := rfl
@[simp] theorem State.writeBlock_curOp (s : State) (bs : List Byte) : (s.writeBlock bs).curOp = s.curOp := rfl
@[simp] theorem State.writeBlock_status (s : State) (bs : List Byte) : (s.writeBlock bs).status = s.status := rfl
@[simp] theorem State.writeBlock_rndIn (s : State) (bs : List Byte) : (s.writeBlock bs).rndIn = s.rndIn := rfl
@[simp] theorem State.writeBlock_rndCount (s : State) (bs : List Byte) : (s.writeBlock bs).rndCount = s.rndCount := rfl

@[simp] theorem State.advanceI_v (s : State) (x : Reg) : (s.advanceI x).v = s.v := rfl
@[simp] theorem State.advanceI_pc (s : State) (x : Reg) : (s.advanceI x).pc = s.pc := rfl
@[simp] theorem State.advanceI_i (s : State) (x : Reg) : (s.advanceI x).i = mask12 (s.i + BitVec.ofNat 16 (blockSize x)) := rfl
@[simp] theorem State.advanceI_dt (s : State) (x : Reg) : (s.advanceI x).dt = s.dt := rfl
@[simp] theorem State.advanceI_st (s : State) (x : Reg) : (s.advanceI x).st = s.st := rfl
@[simp] theorem State.advanceI_stack (s : State) (x : Reg) : (s.advanceI x).stack = s.stack := rfl
@[simp] theorem State.advanceI_mem (s : State) (x : Reg) : (s.advanceI x).mem = s.mem := rfl
@[simp] theorem State.advanceI_key (s : State) (x : Reg) : (s.advanceI x).key = s.key := rfl
@[simp] theorem State.advanceI_disp (s : State) (x : Reg) : (s.advanceI x).disp = s.disp := rfl
@[simp] theorem State.advanceI_dirty (s : State) (x : Reg) : (s.advanceI x).dirty = s.dirty := rfl
@[simp] theorem State.advanceI_curOp (s : State) (x : Reg) : (s.advanceI x).curOp = s.curOp := rfl
@[simp] theorem State.advanceI_status (s : State) (x : Reg) : (s.advanceI x).status = s.status := rfl
@[simp] theorem State.advanceI_rndIn (s : State) (x : Reg) : (s.advanceI x).rndIn = s.rndIn := rfl
@[simp] theorem State.advanceI_rndCount (s : State) (x : Reg) : (s.advanceI x).rndCount = s.rndCount := rfl

@[simp] theorem State.placeWord_v (s : State) (a : Nat) (op : Word) : (s.placeWord a op).v = s.v := rfl
@[simp] theorem State.placeWord_pc (s : State) (a : Nat) (op : Word) : (s.placeWord a op).pc = s.pc := rfl
@[simp] theorem State.placeWord_i (s : State) (a : Nat) (op : Word) : (s.placeWord a op).i = s.i := rfl
@[simp] theorem State.placeWord_dt (s : State) (a : Nat) (op : Word) : (s.placeWord a op).dt = s.dt := rfl
@[simp] theorem State.placeWord_st (s : State) (a : Nat) (op : Word) : (s.placeWord a op).st = s.st := rfl
@[simp] theorem State.placeWord_stack (s : State) (a : Nat) (op : Word) : (s.placeWord a op).stack = s.stack := rfl
@[simp] theorem State.placeWord_mem (s : State) (a : Nat) (op : Word) : (s.placeWord a op).mem = s.mem.writeList a [highByte op, lowByte op] := rfl
@[simp] theorem State.placeWord_key (s : State) (a : Nat) (op : Word) : (s.placeWord a op).key = s.key := rfl
@[simp] theorem State.placeWord_disp (s : State) (a : Nat) (op : Word) : (s.placeWord a op).disp = s.disp := rfl
@[simp] theorem State.placeWord_dirty (s : State) (a : Nat) (op : Word) : (s.placeWord a op).dirty = s.dirty := rfl
@[simp] theorem State.placeWord_curOp (s : State) (a : Nat) (op : Word) : (s.placeWord a op).curOp = s.curOp := rfl
@[simp] theorem State.placeWord_status (s : State) (a : Nat) (op : Word) : (s.placeWord a op).status = s.status := rfl
@[simp] theorem State.placeWord_rndIn (s : State) (a : Nat) (op : Word) : (s.placeWord a op).rndIn = s.rndIn := rfl
@[simp] theorem State.placeWord_rndCount (s : State) (a : Nat) (op : Word) : (s.placeWord a op).rndCount = s.rndCount := rfl

/-! `takeRnd` and `skipIf` branch, so their field lemmas split once. -/

@[simp] theorem State.takeRnd_v (s : State) : s.takeRnd.v = s.v := by
  unfold State.takeRnd; split <;> rfl
@[simp] theorem State.takeRnd_pc (s : State) : s.takeRnd.pc = s.pc := by
  unfold State.takeRnd; split <;> rfl
@[simp] theorem State.takeRnd_i (s : State) : s.takeRnd.i = s.i := by
  unfold State.takeRnd; split <;> rfl
@[simp] theorem State.takeRnd_dt (s : State) : s.takeRnd.dt = s.dt := by
  unfold State.takeRnd; split <;> rfl
@[simp] theorem State.takeRnd_st (s : State) : s.takeRnd.st = s.st := by
  unfold State.takeRnd; split <;> rfl
@[simp] theorem State.takeRnd_stack (s : State) : s.takeRnd.stack = s.stack := by
  unfold State.takeRnd; split <;> rfl
@[simp] theorem State.takeRnd_mem (s : State) : s.takeRnd.mem = s.mem := by
  unfold State.takeRnd; split <;> rfl
@[simp] theorem State.takeRnd_key (s : State) : s.takeRnd.key = s.key := by
  unfold State.takeRnd; split <;> rfl
@[simp] theorem State.takeRnd_disp (s : State) : s.takeRnd.disp = s.disp := by
  unfold State.takeRnd; split <;> rfl
@[simp] theorem State.takeRnd_dirty (s : State) : s.takeRnd.dirty = s.dirty := by
  unfold State.takeRnd; split <;> rfl
@[simp] theorem State.takeRnd_curOp (s : State) : s.takeRnd.curOp = s.curOp := by
  unfold State.takeRnd; split <;> rfl
@[simp] theorem State.takeRnd_status (s : State) : s.takeRnd.status = s.status := by
  unfold State.takeRnd; split <;> rfl

/-- A supplied byte is consumed. -/
theorem State.takeRnd_rndIn (s : State) : s.takeRnd.rndIn = s.rndIn.tail := by
  unfold State.takeRnd; split <;> simp_all

/-- Only a draw with nothing supplied counts. -/
theorem State.takeRnd_rndCount (s : State) :
    s.takeRnd.rndCount = if s.rndIn = [] then s.rndCount + 1 else s.rndCount := by
  unfold State.takeRnd; split <;> simp_all

/-- A skip is one write of the pc. -/
theorem State.skipIf_eq (c : Bool) (s : State) : s.skipIf c = s.writePc (s.pc + if c then 4 else 2) := by
  cases c <;> rfl

@[simp] theorem State.skipIf_pc (c : Bool) (s : State) : (s.skipIf c).pc = mask12 (s.pc + if c then 4 else 2) := by
  rw [State.skipIf_eq]; rfl
@[simp] theorem State.skipIf_v (c : Bool) (s : State) : (s.skipIf c).v = s.v := by
  rw [State.skipIf_eq]; rfl
@[simp] theorem State.skipIf_i (c : Bool) (s : State) : (s.skipIf c).i = s.i := by
  rw [State.skipIf_eq]; rfl
@[simp] theorem State.skipIf_dt (c : Bool) (s : State) : (s.skipIf c).dt = s.dt := by
  rw [State.skipIf_eq]; rfl
@[simp] theorem State.skipIf_st (c : Bool) (s : State) : (s.skipIf c).st = s.st := by
  rw [State.skipIf_eq]; rfl
@[simp] theorem State.skipIf_stack (c : Bool) (s : State) : (s.skipIf c).stack = s.stack := by
  rw [State.skipIf_eq]; rfl
@[simp] theorem State.skipIf_mem (c : Bool) (s : State) : (s.skipIf c).mem = s.mem := by
  rw [State.skipIf_eq]; rfl
@[simp] theorem State.skipIf_key (c : Bool) (s : State) : (s.skipIf c).key = s.key := by
  rw [State.skipIf_eq]; rfl
@[simp] theorem State.skipIf_disp (c : Bool) (s : State) : (s.skipIf c).disp = s.disp := by
  rw [State.skipIf_eq]; rfl
@[simp] theorem State.skipIf_dirty (c : Bool) (s : State) : (s.skipIf c).dirty = s.dirty := by
  rw [State.skipIf_eq]; rfl
@[simp] theorem State.skipIf_curOp (c : Bool) (s : State) : (s.skipIf c).curOp = s.curOp := by
  rw [State.skipIf_eq]; rfl
@[simp] theorem State.skipIf_status (c : Bool) (s : State) : (s.skipIf c).status = s.status := by
  rw [State.skipIf_eq]; rfl
@[simp] theorem State.skipIf_rndIn (c : Bool) (s : State) : (s.skipIf c).rndIn = s.rndIn := by
  rw [State.skipIf_eq]; rfl
@[simp] theorem State.skipIf_rndCount (c : Bool) (s : State) : (s.skipIf c).rndCount = s.rndCount := by
  rw [State.skipIf_eq]; rfl

/-- Two states with equal fields are equal: how a record equation is proved once the fields are known. -/
theorem State.eq_of_fields {s t : State} (hv : s.v = t.v) (hpc : s.pc = t.pc) (hi : s.i = t.i) (hdt : s.dt = t.dt)
    (hst : s.st = t.st) (hstack : s.stack = t.stack) (hmem : s.mem = t.mem) (hkey : s.key = t.key)
    (hdisp : s.disp = t.disp) (hdirty : s.dirty = t.dirty) (hcur : s.curOp = t.curOp) (hstatus : s.status = t.status)
    (hin : s.rndIn = t.rndIn) (hcount : s.rndCount = t.rndCount) : s = t := by
  cases s; cases t; simp_all

/-! ## Registers -/

/-- Read after write: the register written reads the value, every other as before (10_state R21: none is hard-wired). -/
theorem State.readV_writeV (s : State) (x r : Reg) (b : Byte) :
    (s.writeV x b).readV r = if x = r then b else s.readV r := by
  simp only [State.readV, State.writeV_v, Fin.getElem_fin, Vector.getElem_set, Fin.ext_iff]

@[simp] theorem State.readV_writeV_self (s : State) (x : Reg) (b : Byte) : (s.writeV x b).readV x = b := by
  simp [State.readV_writeV]

/-- A register is read off the register file alone. -/
theorem State.readV_congr {s t : State} (h : s.v = t.v) (r : Reg) : s.readV r = t.readV r := by
  simp [State.readV, h]

end Sys2Proof.Machine
end

