-- ==== Sys2Proof/Laws/Ops.lean ====
section
/-! SUPPORT. One lemma per shared operation that says everything it can do. -/

namespace Sys2Proof.Machine

/-! ## Masks and zero extensions -/

/-- `a & 0xFFF` is the remainder modulo 4096. -/
@[simp] theorem mask12_number (a : Word) : (mask12 a).toNat = a.toNat % 4096 := by
  rw [mask12, BitVec.toNat_and]
  exact Nat.and_two_pow_sub_one_eq_mod a.toNat 12

theorem mask12_lt (a : Word) : (mask12 a).toNat < 4096 := by
  rw [mask12_number]; exact Nat.mod_lt _ (by decide)

/-- Masking an address changes nothing. -/
theorem mask12_of_lt {a : Word} (h : a.toNat < 4096) : mask12 a = a := by
  apply BitVec.eq_of_toNat_eq; rw [mask12_number, Nat.mod_eq_of_lt h]

@[simp] theorem address_number (nnn : Addr) : (address nnn).toNat = nnn.toNat := by
  simp [address]; omega

@[simp] theorem readWide_number (s : State) (x : Reg) : (s.readWide x).toNat = (s.readV x).toNat := by
  simp [State.readWide]; omega

/-- An advance of the pc modulo 4096 (40_dispatch R128). -/
theorem mask12_add (a : Word) (k : Nat) : (mask12 (a + BitVec.ofNat 16 k)).toNat = (a.toNat + k) % 4096 := by
  rw [mask12_number, BitVec.toNat_add, BitVec.toNat_ofNat]; omega

/-- The glyph address (43_index_memory R232). -/
@[simp] theorem glyphAddress_number (b : Byte) : (glyphAddress b).toNat = 5 * b.toNat := by
  have := b.isLt
  simp [glyphAddress, Config.fontBase, Config.glyphSize]; omega

/-! ## How a step ends -/

/-- `complete` answers one next state. -/
@[simp] theorem complete_eq (s t : State) : complete s = .next t ↔ t = { s with status := Status.ok } := by
  simp [complete, eq_comm]

/-- `raise` answers one next state: only `status` differs (60_exceptions R331). -/
@[simp] theorem raise_eq (c : Condition) (s t : State) :
    raise c s = .next t ↔ t = { s with status := ⟨.fault, c.cause, c.info⟩ } := by
  simp [raise, eq_comm]

/-- `waitForKey` answers one next state. -/
@[simp] theorem waitForKey_eq (s t : State) :
    waitForKey s = .next t ↔ t = { s with status := ⟨.waitKey, .none, 0⟩ } := by
  simp [waitForKey, eq_comm]

/-- `unimplemented` answers one next state. -/
@[simp] theorem unimplemented_eq (s t : State) :
    unimplemented s = .next t ↔ t = { s with status := ⟨.unimpl, .none, 0⟩ } := by
  simp [unimplemented, eq_comm]

/-- `finish` completes what was computed, or raises in the state of the start. -/
theorem finish_cases (s t : State) (r : Checked State) :
    finish s r = .next t ↔
      (∃ u, r = .ok u ∧ t = { u with status := Status.ok }) ∨
      (∃ c, r = .error c ∧ t = { s with status := ⟨.fault, c.cause, c.info⟩ }) := by
  cases r <;> simp [finish]

/-! ## The call stack -/

/-- `push` overflows at the bound and otherwise appends the masked address. -/
theorem push_cases (p : Params) (a : Word) (s : State) :
    (p.stackDepth ≤ s.stack.length ∧ push p a s = .error ⟨.stackOverflow, BitVec.ofNat 16 s.stack.length⟩) ∨
    (s.stack.length < p.stackDepth ∧
      push p a s = .ok { s with stack := s.stack ++ [(mask12 a).setWidth 12] }) := by
  unfold push
  by_cases h : s.stack.length ≥ p.stackDepth
  · exact .inl ⟨h, if_pos h⟩
  · exact .inr ⟨by omega, if_neg h⟩

/-- `pop` underflows on the empty stack and otherwise takes the last entry. -/
theorem pop_cases (s : State) :
    (s.stack = [] ∧ pop s = .error ⟨.stackUnderflow, 0⟩) ∨
    (∃ init a, s.stack = init ++ [a] ∧ pop s = .ok (a.setWidth 16, { s with stack := init })) := by
  rcases List.eq_nil_or_concat s.stack with h | ⟨init, a, h⟩
  · exact .inl ⟨h, by simp [pop, h]⟩
  · exact .inr ⟨init, a, by simpa using h, by simp [pop, h]⟩

/-! ## Memory access -/

/-- `readBytes` reads in range and faults at the lowest address out of range. -/
theorem readBytes_cases (s : State) (base n : Nat) :
    (inRange base n = true ∧ readBytes s base n = .ok (s.mem.readList base n)) ∨
    (inRange base n = false ∧ readBytes s base n = .error (outOfRange (lowestOutOfRange base))) := by
  unfold readBytes
  cases h : inRange base n <;> simp

/-- `writeBytes` writes in range and faults at the lowest address out of range, writing nothing. -/
theorem writeBytes_cases (s : State) (base : Nat) (bs : List Byte) :
    (inRange base bs.length = true ∧ writeBytes s base bs = .ok { s with mem := s.mem.writeList base bs }) ∨
    (inRange base bs.length = false ∧ writeBytes s base bs = .error (outOfRange (lowestOutOfRange base))) := by
  unfold writeBytes
  cases h : inRange base bs.length <;> simp

theorem inRange_iff (base n : Nat) : inRange base n = true ↔ n = 0 ∨ base + n ≤ 4096 := by
  simp [inRange]

theorem inRange_false_iff (base n : Nat) : inRange base n = false ↔ n ≠ 0 ∧ 4096 < base + n := by
  simp [inRange]

/-- From an address, the lowest byte out of range is 0x1000 (60_exceptions R332). -/
theorem lowestOutOfRange_of_lt {base : Nat} (h : base < 4096) : lowestOutOfRange base = 0x1000 := by
  unfold lowestOutOfRange; omega

/-- `fetch` below 0xFFF reads the two bytes at `pc`, big-endian (20_memory R64). -/
theorem fetch_of_lt {s : State} (h : s.pc.toNat < 0xFFF) :
    fetch s = .ok (bigEndian (s.mem.read s.pc.toNat) (s.mem.read (s.pc.toNat + 1))) := by
  simp only [fetch, memRead]
  rw [if_neg (by omega)]
  dsimp only
  rw [if_neg (by omega)]

/-- `fetch` at 0xFFF raises for the byte at 0x1000 (40_dispatch R122). -/
theorem fetch_top {s : State} (h : s.pc.toNat = 0xFFF) : fetch s = .error ⟨.memoryOutOfRange, 0x1000⟩ := by
  simp [fetch, memRead, h, outOfRange]

/-! ## Register blocks -/

/-- The registers from `k` upwards take the bytes; every other register is as before. -/
theorem setRegsFrom_get (v : RegFile) (k : Nat) (bs : List Byte) (r : Nat) (hr : r < 16) :
    (setRegsFrom v k bs)[r] = if k ≤ r ∧ r < k + bs.length then bs.getD (r - k) 0 else v[r] := by
  induction bs generalizing v k with
  | nil => simp only [setRegsFrom, List.length_nil]; rw [if_neg (by omega)]
  | cons b bs ih =>
    rw [setRegsFrom, ih, List.length_cons]
    by_cases h1 : r = k
    · subst h1
      rw [if_neg (by omega), if_pos (by omega)]
      simp
    · by_cases h2 : k + 1 ≤ r ∧ r < k + 1 + bs.length
      · rw [if_pos h2, if_pos (by omega), show r - k = (r - (k + 1)) + 1 by omega]
        rfl
      · rw [if_neg h2, if_neg (by omega), Vector.getElem_setIfInBounds_ne hr (by omega)]

/-- A register after a block of bytes is written from `V0` upwards. -/
theorem State.readV_writeBlock (s : State) (bs : List Byte) (r : Reg) :
    (s.writeBlock bs).readV r = if r.val < bs.length then bs.getD r.val 0 else s.readV r := by
  simp only [State.readV, State.writeBlock_v, Fin.getElem_fin]
  rw [setRegsFrom_get _ _ _ _ r.isLt]
  simp

@[simp] theorem State.readBlock_length (s : State) (x : Reg) : (s.readBlock x).length = x.val + 1 := by
  simp [State.readBlock, blockSize]

/-- The bytes of a block are the registers in order. -/
theorem State.readBlock_getD (s : State) (x r : Reg) (h : r.val ≤ x.val) :
    (s.readBlock x).getD r.val 0 = s.readV r := by
  simp [State.readBlock, blockSize, State.readV, List.getD_eq_getElem?_getD, List.getElem?_take]
  rw [if_pos (by omega)]; simp

/-! ## Results and flags -/

/-- A register after the same result is written to a list of destinations. -/
theorem State.readV_writeResults (s : State) (r : Byte) (xs : List Reg) (q : Reg) :
    (s.writeResults r xs).readV q = if q ∈ xs then r else s.readV q := by
  induction xs generalizing s with
  | nil => simp [State.writeResults]
  | cons x xs ih =>
    rw [State.writeResults, ih, State.readV_writeV]
    by_cases h1 : q ∈ xs <;> by_cases h2 : x = q <;> simp [h1, h2, eq_comm]
    intro h; exact absurd h.symm h2

/-- A list of results changes registers only. -/
theorem State.writeResults_only (s : State) (r : Byte) (xs : List Reg) :
    s.writeResults r xs = { s with v := (s.writeResults r xs).v } := by
  induction xs generalizing s with
  | nil => rfl
  | cons x xs ih => rw [State.writeResults, ih]; rfl

/-- Results and flag change registers only. -/
theorem State.writeFlagged_only (p : Params) (s : State) (xs : List Reg) (r f : Byte) :
    s.writeFlagged p xs r f = { s with v := (s.writeFlagged p xs r f).v } := by
  unfold State.writeFlagged
  split
  · rw [State.writeV, State.writeResults_only]
  · rw [State.writeResults_only]; rfl

@[simp] theorem State.writeFlagged_pc (p : Params) (s : State) (xs : List Reg) (r c : Byte) :
    (s.writeFlagged p xs r c).pc = s.pc := by rw [State.writeFlagged_only]
@[simp] theorem State.writeFlagged_i (p : Params) (s : State) (xs : List Reg) (r c : Byte) :
    (s.writeFlagged p xs r c).i = s.i := by rw [State.writeFlagged_only]
@[simp] theorem State.writeFlagged_dt (p : Params) (s : State) (xs : List Reg) (r c : Byte) :
    (s.writeFlagged p xs r c).dt = s.dt := by rw [State.writeFlagged_only]
@[simp] theorem State.writeFlagged_st (p : Params) (s : State) (xs : List Reg) (r c : Byte) :
    (s.writeFlagged p xs r c).st = s.st := by rw [State.writeFlagged_only]
@[simp] theorem State.writeFlagged_stack (p : Params) (s : State) (xs : List Reg) (r c : Byte) :
    (s.writeFlagged p xs r c).stack = s.stack := by rw [State.writeFlagged_only]
@[simp] theorem State.writeFlagged_mem (p : Params) (s : State) (xs : List Reg) (r c : Byte) :
    (s.writeFlagged p xs r c).mem = s.mem := by rw [State.writeFlagged_only]
@[simp] theorem State.writeFlagged_key (p : Params) (s : State) (xs : List Reg) (r c : Byte) :
    (s.writeFlagged p xs r c).key = s.key := by rw [State.writeFlagged_only]
@[simp] theorem State.writeFlagged_disp (p : Params) (s : State) (xs : List Reg) (r c : Byte) :
    (s.writeFlagged p xs r c).disp = s.disp := by rw [State.writeFlagged_only]
@[simp] theorem State.writeFlagged_dirty (p : Params) (s : State) (xs : List Reg) (r c : Byte) :
    (s.writeFlagged p xs r c).dirty = s.dirty := by rw [State.writeFlagged_only]
@[simp] theorem State.writeFlagged_curOp (p : Params) (s : State) (xs : List Reg) (r c : Byte) :
    (s.writeFlagged p xs r c).curOp = s.curOp := by rw [State.writeFlagged_only]
@[simp] theorem State.writeFlagged_status (p : Params) (s : State) (xs : List Reg) (r c : Byte) :
    (s.writeFlagged p xs r c).status = s.status := by rw [State.writeFlagged_only]
@[simp] theorem State.writeFlagged_rndIn (p : Params) (s : State) (xs : List Reg) (r c : Byte) :
    (s.writeFlagged p xs r c).rndIn = s.rndIn := by rw [State.writeFlagged_only]
@[simp] theorem State.writeFlagged_rndCount (p : Params) (s : State) (xs : List Reg) (r c : Byte) :
    (s.writeFlagged p xs r c).rndCount = s.rndCount := by rw [State.writeFlagged_only]

/-- The register file after results depends on the register file alone. -/
theorem State.writeResults_congr {s t : State} (h : s.v = t.v) (r : Byte) (xs : List Reg) :
    (s.writeResults r xs).v = (t.writeResults r xs).v := by
  induction xs generalizing s t with
  | nil => exact h
  | cons x xs ih => exact ih (by simp [h])

/-- The register file after results and flag depends on the register file alone. -/
theorem State.writeFlagged_congr {s t : State} (h : s.v = t.v) (p : Params) (xs : List Reg) (r f : Byte) :
    (s.writeFlagged p xs r f).v = (t.writeFlagged p xs r f).v := by
  unfold State.writeFlagged
  split
  · simp [State.writeResults_congr h]
  · exact State.writeResults_congr (by simp [h]) r xs

/-- With the flag last, `VF` holds the flag whatever the destinations (42_alu R181). -/
theorem State.readV_writeFlagged {p : Params} (hp : p.flagLast = true) (s : State) (xs : List Reg) (r f : Byte) (q : Reg) :
    (s.writeFlagged p xs r f).readV q = if q = VF then f else if q ∈ xs then r else s.readV q := by
  rw [State.writeFlagged, if_pos hp, State.readV_writeV, State.readV_writeResults]
  simp only [eq_comm]

@[simp] theorem hardware_flagLast : hardware.flagLast = true := rfl
@[simp] theorem hardware_shiftWritesVy : hardware.shiftWritesVy = true := rfl
@[simp] theorem hardware_stackDepth : hardware.stackDepth = 16 := rfl
@[simp] theorem hardware_resetZero : hardware.resetZero = true := rfl
@[simp] theorem hardware_font : hardware.font = fontTable := rfl
@[simp] theorem hardware_keyWaitPick (k : Reg) (ks : List Reg) : hardware.keyWaitPick k ks = k := rfl

/-! ## Keys -/

/-- `keyIndex` gives the key a register names, or raises for a value above 0xF (45_timers_input R306). -/
theorem keyIndex_cases (s : State) (x : Reg) :
    (∃ k : Reg, (s.readV x).toNat = k.val ∧ keyIndex s x = .ok k) ∨
    (16 ≤ (s.readV x).toNat ∧ keyIndex s x = .error ⟨.keyIndexOutOfRange, s.readWide x⟩) := by
  unfold keyIndex
  by_cases h : (s.readV x).toNat < 16
  · exact .inl ⟨⟨_, h⟩, rfl, dif_pos h⟩
  · exact .inr ⟨by omega, dif_neg h⟩

/-- Which keys are listed as pressed. -/
theorem mem_pressedKeys (s : State) (k : Reg) : k ∈ pressedKeys s ↔ s.keyDown k = true := by
  simp [pressedKeys]

/-- No key is listed exactly when none is pressed. -/
theorem pressedKeys_eq_nil (s : State) : pressedKeys s = [] ↔ ∀ k : Reg, s.keyDown k = false := by
  simp [pressedKeys, List.filter_eq_nil_iff]

/-- The pressed keys are listed in rising order. -/
theorem pressedKeys_sorted (s : State) : (pressedKeys s).Pairwise (· < ·) := by
  unfold pressedKeys
  exact List.Pairwise.filter _ (List.pairwise_lt_finRange 16)

/-- A rising list of exactly the pressed keys is the list of the pressed keys. -/
theorem pressedKeys_eq {s : State} {ks : List Reg} (hs : ks.Pairwise (· < ·)) (hm : ∀ k : Reg, k ∈ ks ↔ s.keyDown k = true) :
    pressedKeys s = ks :=
  ((List.perm_ext_iff_of_nodup ((pressedKeys_sorted s).imp ne_of_lt) (hs.imp ne_of_lt)).2
    (fun k => by rw [mem_pressedKeys, hm])).eq_of_pairwise' (pressedKeys_sorted s) hs

/-- The first listed key is pressed and is the lowest. -/
theorem pressedKeys_head {s : State} {k : Reg} {ks : List Reg} (h : pressedKeys s = k :: ks) :
    s.keyDown k = true ∧ ∀ j : Reg, s.keyDown j = true → k ≤ j := by
  have hs := pressedKeys_sorted s
  refine ⟨(mem_pressedKeys s k).1 (by simp [h]), fun j hj => ?_⟩
  have hm := (mem_pressedKeys s j).2 hj
  rw [h] at hs hm
  rcases List.mem_cons.1 hm with rfl | hm
  · exact Nat.le_refl _
  · exact Nat.le_of_lt ((List.pairwise_cons.1 hs).1 j hm)

/-! ## The display -/

/-- A toggle changes one pixel. -/
theorem Display.pix_toggle (d : Display) (c e : Fin 64) (r q : Fin 32) :
    (Display.toggle d c r).pix e q = (d.pix e q ^^ decide (e = c ∧ q = r)) := by
  unfold Display.pix Display.toggle
  simp only [Fin.getElem_fin, Vector.getElem_set]
  by_cases h : r.val = q.val
  · have : r = q := Fin.ext h
    subst this
    simp [Fin.ext_iff, eq_comm]
  · have : q ≠ r := fun e => h (by rw [e])
    simp [h, this]

/-- Two displays with the same pixels are the same display. -/
theorem Display.ext_pix {d e : Display} (h : ∀ c r, d.pix c r = e.pix c r) : d = e := by
  apply Vector.ext
  intro r hr
  apply BitVec.eq_of_getLsbD_eq
  intro c hc
  exact h ⟨c, hc⟩ ⟨r, hr⟩

@[simp] theorem Display.pix_clear (c : Fin 64) (r : Fin 32) : Display.clear.pix c r = false := by
  simp [Display.pix, Display.clear]

end Sys2Proof.Machine
end

