-- ==== Sys2Proof/Laws/Exec.lean ====
section
/-! SUPPORT. What each instruction that can raise or wait can do, said once: it raises its one condition and changes only
`status`, or completes in the state written out. Every other instruction is one record update, read off its definition. -/

namespace Sys2Proof.Machine

/-- `00EE` (41_control_flow R141). -/
theorem execRet_cases {s t : State} (h : execRet s = .next t) :
    (s.stack = [] ∧ t = { s with status := ⟨.fault, .stackUnderflow, 0⟩ }) ∨
    (∃ init a, s.stack = init ++ [a] ∧
      t = { s with stack := init, pc := mask12 (a.setWidth 16), status := Status.ok }) := by
  unfold execRet at h
  rcases pop_cases s with ⟨h1, h2⟩ | ⟨i, a, h1, h2⟩ <;> rw [h2] at h <;> simp [finish] at h
  · exact .inl ⟨h1, h⟩
  · exact .inr ⟨i, a, h1, h⟩

/-- `2nnn` under any parameters (41_control_flow R143). -/
theorem callWith_cases {p : Params} {nnn : Addr} {s t : State} (h : callWith p nnn s = .next t) :
    (p.stackDepth ≤ s.stack.length ∧
      t = { s with status := ⟨.fault, .stackOverflow, BitVec.ofNat 16 s.stack.length⟩ }) ∨
    (s.stack.length < p.stackDepth ∧
      t = { s with stack := s.stack ++ [(mask12 (mask12 (s.pc + 2))).setWidth 12], pc := mask12 (address nnn),
                   status := Status.ok }) := by
  unfold callWith at h
  rcases push_cases p (mask12 (s.pc + 2)) s with ⟨h1, h2⟩ | ⟨h1, h2⟩ <;> rw [h2] at h <;> simp [finish] at h
  · exact .inl ⟨h1, h⟩
  · exact .inr ⟨h1, h⟩

/-- `2nnn` (41_control_flow R143). -/
theorem execCall_cases {nnn : Addr} {s t : State} (h : execCall nnn s = .next t) :
    (16 ≤ s.stack.length ∧ t = { s with status := ⟨.fault, .stackOverflow, BitVec.ofNat 16 s.stack.length⟩ }) ∨
    (s.stack.length < 16 ∧
      t = { s with stack := s.stack ++ [(mask12 (mask12 (s.pc + 2))).setWidth 12], pc := mask12 (address nnn),
                   status := Status.ok }) :=
  callWith_cases (p := hardware) h

/-- What a `MemoryOutOfRange` of an indexed access leaves. -/
abbrev indexedFault (s : State) : State :=
  { s with status := ⟨.fault, .memoryOutOfRange, BitVec.ofNat 16 (lowestOutOfRange s.i.toNat)⟩ }

/-- `Fx33` (43_index_memory R233). -/
theorem execLdBVx_cases {x : Reg} {s t : State} (h : execLdBVx x s = .next t) :
    (inRange s.i.toNat 3 = false ∧ t = indexedFault s) ∨
    (inRange s.i.toNat 3 = true ∧
      t = { s with mem := s.mem.writeList s.i.toNat (bcdDigits (s.readV x)), pc := mask12 (s.pc + 2),
                   status := Status.ok }) := by
  unfold execLdBVx at h
  rcases writeBytes_cases s (indexBase s) (bcdDigits (s.readV x)) with ⟨h1, h2⟩ | ⟨h1, h2⟩ <;>
    rw [h2] at h <;> simp [finish] at h
  · exact .inr ⟨h1, h⟩
  · exact .inl ⟨h1, h⟩

/-- `Fx55` (43_index_memory R234). -/
theorem execStRegs_cases {x : Reg} {s t : State} (h : execStRegs x s = .next t) :
    (inRange s.i.toNat (x.val + 1) = false ∧ t = indexedFault s) ∨
    (inRange s.i.toNat (x.val + 1) = true ∧
      t = { s with mem := s.mem.writeList s.i.toNat (s.readBlock x), i := mask12 (s.i + BitVec.ofNat 16 (x.val + 1)),
                   pc := mask12 (s.pc + 2), status := Status.ok }) := by
  unfold execStRegs at h
  rcases writeBytes_cases s (indexBase s) (s.readBlock x) with ⟨h1, h2⟩ | ⟨h1, h2⟩ <;>
    rw [h2] at h <;> simp [finish] at h <;> simp at h1
  · exact .inr ⟨h1, h⟩
  · exact .inl ⟨h1, h⟩

/-- `Fx65` (43_index_memory R235). -/
theorem execLdRegs_cases {x : Reg} {s t : State} (h : execLdRegs x s = .next t) :
    (inRange s.i.toNat (x.val + 1) = false ∧ t = indexedFault s) ∨
    (inRange s.i.toNat (x.val + 1) = true ∧
      t = { s with v := setRegsFrom s.v 0 (s.mem.readList s.i.toNat (x.val + 1)),
                   i := mask12 (s.i + BitVec.ofNat 16 (x.val + 1)), pc := mask12 (s.pc + 2), status := Status.ok }) := by
  unfold execLdRegs at h
  rcases readBytes_cases s (indexBase s) (blockSize x) with ⟨h1, h2⟩ | ⟨h1, h2⟩ <;> rw [h2] at h <;> simp [finish] at h
  · exact .inr ⟨h1, h⟩
  · exact .inl ⟨h1, h⟩

/-- What the loops of `Dxyn` leave: the buffer and the collision (44_display R271). -/
def drawn (x y : Reg) (n : Nibble) (s : State) : Canvas :=
  drawRows (s.readV x) (s.readV y) 0 (s.mem.readList s.i.toNat n.toNat) (s.disp, false)

/-- `Dxyn` (44_display R271). -/
theorem execDrw_cases {x y : Reg} {n : Nibble} {s t : State} (h : execDrw x y n s = .next t) :
    (inRange s.i.toNat n.toNat = false ∧ t = indexedFault s) ∨
    (inRange s.i.toNat n.toNat = true ∧
      t = { s with disp := (drawn x y n s).1, dirty := true, v := s.v.set 15 (flagByte (drawn x y n s).2),
                   pc := mask12 (s.pc + 2), status := Status.ok }) := by
  unfold execDrw at h
  rcases readBytes_cases s (indexBase s) n.toNat with ⟨h1, h2⟩ | ⟨h1, h2⟩ <;> rw [h2] at h <;> simp [finish] at h
  · exact .inr ⟨h1, h⟩
  · exact .inl ⟨h1, h⟩

/-- What a `KeyIndexOutOfRange` leaves. -/
abbrev keyFault (x : Reg) (s : State) : State := { s with status := ⟨.fault, .keyIndexOutOfRange, s.readWide x⟩ }

/-- `Ex9E` (45_timers_input R303). -/
theorem execSkp_cases {x : Reg} {s t : State} (h : execSkp x s = .next t) :
    (16 ≤ (s.readV x).toNat ∧ t = keyFault x s) ∨
    (∃ k : Reg, (s.readV x).toNat = k.val ∧
      t = { s with pc := mask12 (s.pc + if s.keyDown k = true then 4 else 2), status := Status.ok }) := by
  unfold execSkp at h
  rcases keyIndex_cases s x with ⟨k, h1, h2⟩ | ⟨h1, h2⟩ <;> rw [h2] at h <;>
    simp only [finish, State.skipIf_eq, complete_eq, raise_eq] at h
  · exact .inr ⟨k, h1, h⟩
  · exact .inl ⟨h1, h⟩

/-- `ExA1` (45_timers_input R304). -/
theorem execSknp_cases {x : Reg} {s t : State} (h : execSknp x s = .next t) :
    (16 ≤ (s.readV x).toNat ∧ t = keyFault x s) ∨
    (∃ k : Reg, (s.readV x).toNat = k.val ∧
      t = { s with pc := mask12 (s.pc + if (!s.keyDown k) = true then 4 else 2), status := Status.ok }) := by
  unfold execSknp at h
  rcases keyIndex_cases s x with ⟨k, h1, h2⟩ | ⟨h1, h2⟩ <;> rw [h2] at h <;>
    simp only [finish, State.skipIf_eq, complete_eq, raise_eq] at h
  · exact .inr ⟨k, h1, h⟩
  · exact .inl ⟨h1, h⟩

/-- `Fx0A` under any parameters (45_timers_input R305). -/
theorem waitKey_cases {p : Params} {x : Reg} {s t : State} (h : waitKey p x s = .next t) :
    ((∀ k : Reg, s.keyDown k = false) ∧ t = { s with status := ⟨.waitKey, .none, 0⟩ }) ∨
    (∃ k ks, pressedKeys s = k :: ks ∧
      t = { s with v := s.v.set x (keyByte (p.keyWaitPick k ks)), pc := mask12 (s.pc + 2), status := Status.ok }) := by
  unfold waitKey at h
  split at h
  · rename_i hn; simp at h; exact .inl ⟨(pressedKeys_eq_nil s).1 hn, h⟩
  · rename_i k ks hn; simp at h; exact .inr ⟨k, ks, hn, h⟩

/-- `Fx0A` (45_timers_input R305). -/
theorem execLdVxK_cases {x : Reg} {s t : State} (h : execLdVxK x s = .next t) :
    ((∀ k : Reg, s.keyDown k = false) ∧ t = { s with status := ⟨.waitKey, .none, 0⟩ }) ∨
    (∃ k ks, pressedKeys s = k :: ks ∧
      t = { s with v := s.v.set x (keyByte k), pc := mask12 (s.pc + 2), status := Status.ok }) :=
  waitKey_cases (p := hardware) h

/-- The loops of `Dxyn` toggle pixel by pixel: a bit of the sprite that is 0 changes nothing. -/
theorem drawBit_off {cx cy s : Byte} {r c : Nat} {k : Canvas} (h : spriteBit s c = false) :
    drawBit cx cy s r c k = k := by
  simp [drawBit, h]

/-- One bit of the sprite, as the pixel it reaches and the collision. -/
theorem drawBit_pix (cx cy s : Byte) (r c : Nat) (k : Canvas) (e : Fin 64) (q : Fin 32) :
    Display.pix (drawBit cx cy s r c k).1 e q =
      (Display.pix k.1 e q ^^ (spriteBit s c && decide (e = pixelColumn cx c ∧ q = pixelRow cy r))) := by
  unfold drawBit
  cases spriteBit s c <;> simp [Display.pix_toggle]

/-- The collision after one bit of the sprite. -/
theorem drawBit_collision (cx cy s : Byte) (r c : Nat) (k : Canvas) :
    (drawBit cx cy s r c k).2 =
      (k.2 || (spriteBit s c && Display.pix k.1 (pixelColumn cx c) (pixelRow cy r))) := by
  unfold drawBit
  cases spriteBit s c <;> simp

/-! ## Completion: the state each of the indexed instructions answers when its bytes are in range -/

/-- `Fx33` in range. -/
theorem execLdBVx_next (x : Reg) (s : State) (h : inRange s.i.toNat 3 = true) :
    execLdBVx x s = .next { s with mem := s.mem.writeList s.i.toNat (bcdDigits (s.readV x)), pc := mask12 (s.pc + 2),
                                   status := Status.ok } := by
  have hr : writeBytes s (indexBase s) (bcdDigits (s.readV x)) =
      .ok { s with mem := s.mem.writeList s.i.toNat (bcdDigits (s.readV x)) } := if_pos h
  simp only [execLdBVx, hr, finish]; rfl

/-- `Fx55` in range. -/
theorem execStRegs_next (x : Reg) (s : State) (h : inRange s.i.toNat (x.val + 1) = true) :
    execStRegs x s = .next { s with mem := s.mem.writeList s.i.toNat (s.readBlock x),
                                    i := mask12 (s.i + BitVec.ofNat 16 (x.val + 1)), pc := mask12 (s.pc + 2),
                                    status := Status.ok } := by
  have hr : writeBytes s (indexBase s) (s.readBlock x) =
      .ok { s with mem := s.mem.writeList s.i.toNat (s.readBlock x) } :=
    if_pos (by rw [State.readBlock_length]; exact h)
  simp only [execStRegs, hr, finish]; rfl

/-- `Fx65` in range. -/
theorem execLdRegs_next (x : Reg) (s : State) (h : inRange s.i.toNat (x.val + 1) = true) :
    execLdRegs x s = .next { s with v := setRegsFrom s.v 0 (s.mem.readList s.i.toNat (x.val + 1)),
                                    i := mask12 (s.i + BitVec.ofNat 16 (x.val + 1)), pc := mask12 (s.pc + 2),
                                    status := Status.ok } := by
  have hr : readBytes s (indexBase s) (blockSize x) = .ok (s.mem.readList s.i.toNat (x.val + 1)) := if_pos h
  simp only [execLdRegs, hr, finish]; rfl

/-- `Dxyn` in range. -/
theorem execDrw_next (x y : Reg) (n : Nibble) (s : State) (h : inRange s.i.toNat n.toNat = true) :
    execDrw x y n s = .next { s with disp := (drawn x y n s).1, dirty := true, v := s.v.set 15 (flagByte (drawn x y n s).2),
                                     pc := mask12 (s.pc + 2), status := Status.ok } := by
  have hr : readBytes s (indexBase s) n.toNat = .ok (s.mem.readList s.i.toNat n.toNat) := if_pos h
  simp only [execDrw, hr, finish]; rfl

end Sys2Proof.Machine
end

