-- ==== Sys2Proof/Laws/Draw.lean ====
section
/-! SUPPORT. The loops of `Dxyn` in closed form (44_display R271): a pixel is reached by exactly one offset, so the loops XOR
the sprite into the buffer and collide where a 1 of it meets a set pixel. -/

namespace Sys2Proof.Machine

/-- How many columns right of the origin a pixel lies, wrapped (44_display R271). -/
def columnOffset (cx : Byte) (e : Fin 64) : Nat := (e.val + 64 - cx.toNat % 64) % 64

/-- How many rows below the origin a pixel lies, wrapped (44_display R271). -/
def rowOffset (cy : Byte) (q : Fin 32) : Nat := (q.val + 32 - cy.toNat % 32) % 32

/-- The column that an offset reaches is the one that lies that far right of the origin. -/
theorem pixelColumn_iff (cx : Byte) (e : Fin 64) {c : Nat} (h : c < 64) : e = pixelColumn cx c ↔ columnOffset cx e = c := by
  have := e.isLt
  simp only [Fin.ext_iff, pixelColumn, Fin.ofNat, columnOffset]; omega

/-- The row that an offset reaches is the one that lies that far below the origin. -/
theorem pixelRow_iff (cy : Byte) (q : Fin 32) {r : Nat} (h : r < 32) : q = pixelRow cy r ↔ rowOffset cy q = r := by
  have := q.isLt
  simp only [Fin.ext_iff, pixelRow, Fin.ofNat, rowOffset]; omega

/-- The pixels after the first `n` columns of a sprite row. -/
theorem drawColumns_pix (cx cy s : Byte) {r n : Nat} (hr : r < 32) (hn : n ≤ 64) (k : Canvas) (e : Fin 64) (q : Fin 32) :
    Display.pix (drawColumns cx cy s r n k).1 e q =
      (Display.pix k.1 e q ^^ (decide (columnOffset cx e < n) && (decide (rowOffset cy q = r) && spriteBit s (columnOffset cx e)))) := by
  induction n with
  | zero => simp [drawColumns]
  | succ n ih =>
    rw [drawColumns, drawBit_pix, ih (by omega)]
    simp only [pixelColumn_iff cx e (show n < 64 by omega), pixelRow_iff cy q hr]
    by_cases h : columnOffset cx e = n
    · subst h; simp [Bool.and_comm]
    · have : decide (columnOffset cx e < n + 1) = decide (columnOffset cx e < n) := by simp; omega
      simp only [h, this]; simp

/-- The collision after the first `n` columns of a sprite row. -/
theorem drawColumns_collision (cx cy s : Byte) {r n : Nat} (hr : r < 32) (hn : n ≤ 64) (k : Canvas) :
    (drawColumns cx cy s r n k).2 = true ↔
      (k.2 = true ∨ ∃ e q, columnOffset cx e < n ∧ rowOffset cy q = r ∧ spriteBit s (columnOffset cx e) = true ∧ Display.pix k.1 e q = true) := by
  induction n with
  | zero => simp [drawColumns]
  | succ n ih =>
    rw [drawColumns, drawBit_collision, Bool.or_eq_true, ih (by omega), drawColumns_pix cx cy s hr (by omega)]
    have e1 : columnOffset cx (pixelColumn cx n) = n := (pixelColumn_iff _ _ (by omega)).1 rfl
    have e2 : rowOffset cy (pixelRow cy r) = r := (pixelRow_iff _ _ hr).1 rfl
    simp only [e1, e2]; simp
    constructor
    · rintro ((h | ⟨e, h1, q, h2, h3, h4⟩) | ⟨h1, h2⟩)
      · exact .inl h
      · exact .inr ⟨e, by omega, q, h2, h3, h4⟩
      · exact .inr ⟨pixelColumn cx n, le_of_eq e1, pixelRow cy r, e2, by rw [e1]; exact h1, h2⟩
    · rintro (h | ⟨e, h1, q, h2, h3, h4⟩)
      · exact .inl (.inl h)
      · by_cases h : columnOffset cx e = n
        · have := (pixelColumn_iff cx e (show n < 64 by omega)).2 h
          have := (pixelRow_iff cy q hr).2 h2
          subst e q
          exact .inr ⟨by rw [h] at h3; exact h3, h4⟩
        · exact .inl (.inr ⟨e, by omega, q, h2, h3, h4⟩)
/-- Whether the sprite rows `bs`, the first of them at row offset `r`, have a 1 at the pixel `(e, q)`. -/
def rowsCover (cx cy : Byte) (r : Nat) (bs : List Byte) (e : Fin 64) (q : Fin 32) : Bool :=
  decide (columnOffset cx e < 8) && (decide (r ≤ rowOffset cy q ∧ rowOffset cy q < r + bs.length) && spriteBit (bs.getD (rowOffset cy q - r) 0) (columnOffset cx e))

/-- A sprite of one row more covers what that row and the rest cover, never the same pixel. -/
theorem rowsCover_cons (cx cy : Byte) (r : Nat) (b : Byte) (bs : List Byte) (e q) :
    rowsCover cx cy r (b :: bs) e q = ((decide (columnOffset cx e < 8) && (decide (rowOffset cy q = r) && spriteBit b (columnOffset cx e))) ^^ rowsCover cx cy (r+1) bs e q) := by
  unfold rowsCover
  by_cases h : rowOffset cy q = r
  · simp [h]
  · by_cases h2 : r + 1 ≤ rowOffset cy q
    · have : rowOffset cy q - r = (rowOffset cy q - (r+1)) + 1 := by omega
      rw [this, List.getD_cons_succ]
      simp [h, h2, show r ≤ rowOffset cy q by omega, show rowOffset cy q < r + (bs.length+1) ↔ rowOffset cy q < r + 1 + bs.length by omega]
    · simp [h, h2, show ¬ r ≤ rowOffset cy q by omega]

/-- The pixels after all rows: each is XORed with the sprite (44_display R271). -/
theorem drawRows_pix (cx cy : Byte) (bs : List Byte) : ∀ (r : Nat) (_ : r + bs.length ≤ 32) (k : Canvas) (e q),
    Display.pix (drawRows cx cy r bs k).1 e q = (Display.pix k.1 e q ^^ rowsCover cx cy r bs e q) := by
  induction bs with
  | nil =>
    intro r h k e q
    have : ¬ (r ≤ rowOffset cy q ∧ rowOffset cy q < r) := by omega
    simp only [drawRows, rowsCover, List.length_nil, Nat.add_zero, this]; simp
  | cons b bs ih =>
    intro r h k e q
    simp only [List.length_cons] at h
    rw [drawRows, ih _ (by omega), drawRow, drawColumns_pix _ _ _ (by omega) (by omega), rowsCover_cons, Bool.xor_assoc]

/-- The collision after all rows: a 1 of the sprite met a set pixel (44_display R271). -/
theorem drawRows_collision (cx cy : Byte) (bs : List Byte) : ∀ (r : Nat) (_ : r + bs.length ≤ 32) (k : Canvas),
    (drawRows cx cy r bs k).2 = true ↔ (k.2 = true ∨ ∃ e q, rowsCover cx cy r bs e q = true ∧ Display.pix k.1 e q = true) := by
  induction bs with
  | nil =>
    intro r h k
    have : ∀ q, ¬ (r ≤ rowOffset cy q ∧ rowOffset cy q < r) := by intro q; omega
    simp only [drawRows, rowsCover, List.length_nil, Nat.add_zero, this]; simp
  | cons b bs ih =>
    intro r h k
    simp only [List.length_cons] at h
    rw [drawRows, ih _ (by omega), drawRow, drawColumns_collision _ _ _ (by omega) (by omega)]
    simp only [drawColumns_pix cx cy b (show r < 32 by omega) (show 8 ≤ 64 by omega), rowsCover_cons]
    have hex : ∀ e q, rowsCover cx cy (r+1) bs e q = true → rowOffset cy q ≠ r := by
      intro e q; unfold rowsCover; simp; omega
    constructor
    · rintro ((h | ⟨e, q, h1, h2, h3, h4⟩) | ⟨e, q, h1, h2⟩)
      · exact .inl h
      · refine .inr ⟨e, q, ?_, h4⟩
        have : rowsCover cx cy (r+1) bs e q = false := by
          by_contra hc; exact hex e q (by simpa using hc) h2
        simp [this, h1, h2, h3]
      · have := hex e q h1
        refine .inr ⟨e, q, ?_, ?_⟩
        · simp [h1, this]
        · simpa [this] using h2
    · rintro (h | ⟨e, q, h1, h2⟩)
      · exact .inl (.inl h)
      · by_cases hc : rowsCover cx cy (r+1) bs e q = true
        · exact .inr ⟨e, q, hc, by simp [hex e q hc, h2]⟩
        · simp [hc] at h1; exact .inl (.inr ⟨e, q, h1.1, h1.2.1, h1.2.2, h2⟩)

end Sys2Proof.Machine
end

