-- ==== Sys2Proof/Laws/PerInstr.lean ====
section
/-! SUPPORT. Statements for every instruction, one lemma per constructor of `Instr`. -/

namespace Sys2Proof.Laws.ClassifiedAsItself

/-- The classifier gives an instruction's own word the instruction's own kind, whatever its operands (30_encoding R95,
R96): no operand bit leads the word into another row. -/
def Statement (i : Sys2Proof.Instr) : Prop := (Sys2Proof.classify (Sys2Proof.encode i)).kind = i.kind

open Sys2Proof

theorem cls : Statement .cls := rfl
theorem ret : Statement .ret := rfl
theorem jp (nnn : Addr) : Statement (.jp nnn) := by
  simp [Statement, classify, kindOf, encode, Instr.kind]
theorem call (nnn : Addr) : Statement (.call nnn) := by
  simp [Statement, classify, kindOf, encode, Instr.kind]
theorem seImm (x : Reg) (nn : Byte) : Statement (.seImm x nn) := by
  simp [Statement, classify, kindOf, encode, Instr.kind]
theorem sneImm (x : Reg) (nn : Byte) : Statement (.sneImm x nn) := by
  simp [Statement, classify, kindOf, encode, Instr.kind]
theorem seReg (x y : Reg) : Statement (.seReg x y) := by
  simp [Statement, classify, kindOf, encode, Instr.kind]
theorem ldImm (x : Reg) (nn : Byte) : Statement (.ldImm x nn) := by
  simp [Statement, classify, kindOf, encode, Instr.kind]
theorem addImm (x : Reg) (nn : Byte) : Statement (.addImm x nn) := by
  simp [Statement, classify, kindOf, encode, Instr.kind]
theorem ldReg (x y : Reg) : Statement (.ldReg x y) := by
  simp [Statement, classify, kindOf, kindOfFamily8, encode, Instr.kind]
theorem orReg (x y : Reg) : Statement (.orReg x y) := by
  simp [Statement, classify, kindOf, kindOfFamily8, encode, Instr.kind]
theorem andReg (x y : Reg) : Statement (.andReg x y) := by
  simp [Statement, classify, kindOf, kindOfFamily8, encode, Instr.kind]
theorem xorReg (x y : Reg) : Statement (.xorReg x y) := by
  simp [Statement, classify, kindOf, kindOfFamily8, encode, Instr.kind]
theorem addReg (x y : Reg) : Statement (.addReg x y) := by
  simp [Statement, classify, kindOf, kindOfFamily8, encode, Instr.kind]
theorem sub (x y : Reg) : Statement (.sub x y) := by
  simp [Statement, classify, kindOf, kindOfFamily8, encode, Instr.kind]
theorem shr (x y : Reg) : Statement (.shr x y) := by
  simp [Statement, classify, kindOf, kindOfFamily8, encode, Instr.kind]
theorem subn (x y : Reg) : Statement (.subn x y) := by
  simp [Statement, classify, kindOf, kindOfFamily8, encode, Instr.kind]
theorem shl (x y : Reg) : Statement (.shl x y) := by
  simp [Statement, classify, kindOf, kindOfFamily8, encode, Instr.kind]
theorem sneReg (x y : Reg) : Statement (.sneReg x y) := by
  simp [Statement, classify, kindOf, encode, Instr.kind]
theorem ldI (nnn : Addr) : Statement (.ldI nnn) := by
  simp [Statement, classify, kindOf, encode, Instr.kind]
theorem jpV0 (nnn : Addr) : Statement (.jpV0 nnn) := by
  simp [Statement, classify, kindOf, encode, Instr.kind]
theorem rnd (x : Reg) (nn : Byte) : Statement (.rnd x nn) := by
  simp [Statement, classify, kindOf, encode, Instr.kind]
theorem drw (x y : Reg) (n : Nibble) : Statement (.drw x y n) := by
  simp [Statement, classify, kindOf, encode, Instr.kind]
theorem skp (x : Reg) : Statement (.skp x) := by
  simp [Statement, classify, kindOf, kindOfFamilyE, encode, Instr.kind]
theorem sknp (x : Reg) : Statement (.sknp x) := by
  simp [Statement, classify, kindOf, kindOfFamilyE, encode, Instr.kind]
theorem ldVxDt (x : Reg) : Statement (.ldVxDt x) := by
  simp [Statement, classify, kindOf, kindOfFamilyF, encode, Instr.kind]
theorem ldVxK (x : Reg) : Statement (.ldVxK x) := by
  simp [Statement, classify, kindOf, kindOfFamilyF, encode, Instr.kind]
theorem ldDtVx (x : Reg) : Statement (.ldDtVx x) := by
  simp [Statement, classify, kindOf, kindOfFamilyF, encode, Instr.kind]
theorem ldStVx (x : Reg) : Statement (.ldStVx x) := by
  simp [Statement, classify, kindOf, kindOfFamilyF, encode, Instr.kind]
theorem addIVx (x : Reg) : Statement (.addIVx x) := by
  simp [Statement, classify, kindOf, kindOfFamilyF, encode, Instr.kind]
theorem ldFVx (x : Reg) : Statement (.ldFVx x) := by
  simp [Statement, classify, kindOf, kindOfFamilyF, encode, Instr.kind]
theorem ldBVx (x : Reg) : Statement (.ldBVx x) := by
  simp [Statement, classify, kindOf, kindOfFamilyF, encode, Instr.kind]
theorem stRegs (x : Reg) : Statement (.stRegs x) := by
  simp [Statement, classify, kindOf, kindOfFamilyF, encode, Instr.kind]
theorem ldRegs (x : Reg) : Statement (.ldRegs x) := by
  simp [Statement, classify, kindOf, kindOfFamilyF, encode, Instr.kind]

end Sys2Proof.Laws.ClassifiedAsItself
end

