-- ==== Sys2Proof/Laws/Step.lean ====
section
/-! SUPPORT. What a step can do, said once; the machine at the default parameters; what the reset procedure leaves on this
hardware. -/

namespace Sys2Proof.Machine

/-- A step stays halted, or raises at fetch, or executes the decoded instruction, or reports an unknown opcode, whatever the
execute phase (40_dispatch R121). -/
theorem cycle_cases {execute : Instr → State → Result} {s t : State} (h : cycle execute s = .next t) :
    (s.status.state = .fault ∧ t = s) ∨
    (s.status.state ≠ .fault ∧
      ((∃ c, fetch s = .error c ∧ t = { s with status := ⟨.fault, c.cause, c.info⟩ }) ∨
       (∃ op, fetch s = .ok op ∧
         ((∃ i, decode op = .ok i ∧ execute i (s.writeCurOp op) = .next t) ∨
          (∃ e, decode op = .error e ∧ t = { s.writeCurOp op with status := ⟨.unimpl, .none, 0⟩ }))))) := by
  unfold cycle at h
  split at h
  · injection h with h; exact .inl ⟨by assumption, h.symm⟩
  · refine .inr ⟨by assumption, ?_⟩
    split at h
    · rename_i c hc; exact .inl ⟨c, hc, (raise_eq _ _ _).1 h⟩
    · rename_i op hop
      refine .inr ⟨op, hop, ?_⟩
      split at h
      · rename_i i hi; exact .inl ⟨i, hi, h⟩
      · rename_i e he; exact .inr ⟨e, he, (unimplemented_eq _ _).1 h⟩

/-- In FAULT the step stays (40_dispatch R121). -/
theorem cycle_halted (execute : Instr → State → Result) {s : State} (h : s.status.state = .fault) :
    cycle execute s = .next s := by
  simp [cycle, h]

/-- A fetched word that decodes is executed with `curOp` holding it (40_dispatch R123 to R125). -/
theorem cycle_executes (execute : Instr → State → Result) {s : State} {op : Word} {i : Instr}
    (h : s.status.state ≠ .fault) (hf : fetch s = .ok op) (hd : decode op = .ok i) :
    cycle execute s = execute i (s.writeCurOp op) := by
  unfold cycle
  split
  · contradiction
  · rw [hf]; dsimp only; rw [hd]

/-- `cycle_cases` for the step of this hardware. -/
theorem step_cases {s t : State} (h : step s = .next t) :
    (s.status.state = .fault ∧ t = s) ∨
    (s.status.state ≠ .fault ∧
      ((∃ c, fetch s = .error c ∧ t = { s with status := ⟨.fault, c.cause, c.info⟩ }) ∨
       (∃ op, fetch s = .ok op ∧
         ((∃ i, decode op = .ok i ∧ exec i (s.writeCurOp op) = .next t) ∨
          (∃ e, decode op = .error e ∧ t = { s.writeCurOp op with status := ⟨.unimpl, .none, 0⟩ }))))) :=
  cycle_cases h

/-! ## The machine over its parameters (10_state R39) -/

/-- `exec` is the execute phase at the default parameters. -/
@[simp] theorem execWith_hardware : execWith hardware = exec := by
  funext i s; cases i <;> rfl

/-- `step` is the step at the default parameters. -/
@[simp] theorem stepWith_hardware : stepWith hardware = step := by
  funext s; simp only [stepWith, execWith_hardware]; rfl

/-- An instruction that reads no parameter is the same under all. -/
theorem execWith_eq_exec (p : Params) {i : Instr} (s : State) (h : readsParams i = false) : execWith p i s = exec i s := by
  cases i <;> first | rfl | cases h

/-- A transaction on this hardware, with `step` in its place. -/
@[simp] theorem applyEvent_step (loading : Bool) (s : State) : applyEvent loading .step s = step s := by
  simp [applyEvent, applyEventWith]

/-- The empty schedule. -/
@[simp] theorem runEventsWith_nil (p : Params) (loading : Bool) (s : State) : runEventsWith p loading [] s = .next s := rfl

/-- A schedule ends in a next state exactly when its first transaction answers one and the rest end from there. -/
theorem runEventsWith_cons {p : Params} {loading : Bool} {e : Event} {es : List Event} {s t : State} :
    runEventsWith p loading (e :: es) s = .next t ↔
      ∃ u, applyEventWith p loading e s = .next u ∧ runEventsWith p (stillLoading loading e) es u = .next t := by
  rw [runEventsWith]
  cases applyEventWith p loading e s <;> simp

/-! ## Reset -/

/-- On this hardware the reset procedure leaves the reset state, from any state before it: seeding the font where memory
already reads as the font lists nothing (70_reset R371). -/
theorem resetMachine_hardware (u : State) :
    resetMachine hardware u = { State.reset with rndIn := u.rndIn, rndCount := u.rndCount } := by
  have h : Memory.writeList [] Config.fontBase fontTable = [] := by decide
  simp only [resetMachine, resetElements, hardware_resetZero, hardware_font, if_true]
  simp only [State.reset, h]

/-- The length of the font (20_memory R76). -/
theorem fontTable_length : fontTable.length = 80 := rfl

/-- Above the font an unlisted address reads 0 (20_memory R68). -/
theorem Memory.unlisted_above {a : Nat} (h : 80 ≤ a) : Memory.unlisted a = 0 := by
  simp [Memory.unlisted, List.getD_eq_getElem?_getD, List.getElem?_eq_none (show fontTable.length ≤ a from h)]

end Sys2Proof.Machine
end

