-- ==== Sys2Proof/Tests/Slice0.lean ====
section
/-! SUPPORT. Tests and witnesses. The tests' expected results are the spec's own vectors (95_test_vectors, each named by
its number) or words written out from the patterns of 30_encoding R95. The witnesses are concrete states and operands that
meet the hypotheses of the statements. -/

namespace Sys2Proof.Tests

open Sys2Proof Sys2Proof.Machine

/-! ## Helpers -/

/-- The reset state with some registers set. -/
def regs (l : List (Reg × Byte)) : State := l.foldl (fun s p => s.writeV p.1 p.2) State.reset

/-- The same with `I` set. -/
def regsAt (i : Word) (l : List (Reg × Byte)) : State := { regs l with i := i }

/-- One step of the word from the state answers a next state that passes the check. -/
def yields (s : State) (op : Nat) (check : State → Bool) : Bool :=
  match step (s.withFetchWord 16 op) with
  | .next t => check t
  | .fault _ => false
  | .refused _ => false

/-- The step completed, the pc at `pc` and the register `x` at `b`. -/
def ends (pc : Word) (x : Reg) (b : Byte) (t : State) : Bool :=
  t.pc == pc && t.readV x == b && t.status == Status.ok

/-- The step raised this and the pc stayed. -/
def raised (pc : Word) (st : Status) (t : State) : Bool := t.pc == pc && t.status == st

/-! ## Well-formedness: every check refuses an ill-formed term -/

theorem test_row_pattern_outside_mask : Row.wellFormed ⟨.cls, 0x00E1, 0xFFF0⟩ = false := by decide
theorem test_row_overlap : Row.disjoint ⟨.jp, 0x1000, 0xF000⟩ ⟨.call, 0x1230, 0xFFF0⟩ = false := by decide
theorem test_params_short_font : Params.wellFormed { hardware with font := fontTable.take 79 } = false := by decide
theorem test_params_deep_stack : Params.wellFormed { hardware with stackDepth := 65536 } = false := by decide
theorem test_params_hardware : Params.wellFormed hardware = true := by decide
theorem test_rom_too_long : romWellFormed (List.replicate 3585 0) = false := by
  unfold romWellFormed; rw [List.length_replicate]; decide
theorem test_rom_of_full_length : romWellFormed (List.replicate 3584 0) = true := by
  unfold romWellFormed; rw [List.length_replicate]; decide
theorem test_table_rows_wellFormed : opcodeTable.all Row.wellFormed = true := by decide
theorem test_table_rows_disjoint : opcodeTable.Pairwise (fun r q => Row.disjoint r q = true) := by decide
theorem test_table_kinds_numbered : opcodeTable.map (fun r => r.kind.code) = (List.range 34).map (fun k => BitVec.ofNat 6 (k + 1)) := by
  decide

/-! ## Decoding: one word for every constructor, written from 30_encoding R95 -/

/-- The word decodes to the instruction and the instruction encodes to the word. -/
def reads (op : Word) (i : Instr) : Bool := decodeTableWord 16 op.toNat == some i && encode i == op

theorem test_reads_cls : reads 0x00E0 .cls = true := by decide
theorem test_reads_ret : reads 0x00EE .ret = true := by decide
theorem test_reads_jp : reads 0x1234 (.jp 0x234) = true := by decide
theorem test_reads_call : reads 0x2300 (.call 0x300) = true := by decide
theorem test_reads_seImm : reads 0x3310 (.seImm 3 0x10) = true := by decide
theorem test_reads_sneImm : reads 0x4311 (.sneImm 3 0x11) = true := by decide
theorem test_reads_seReg : reads 0x5120 (.seReg 1 2) = true := by decide
theorem test_reads_ldImm : reads 0x6A12 (.ldImm 10 0x12) = true := by decide
theorem test_reads_addImm : reads 0x7A05 (.addImm 10 0x05) = true := by decide
theorem test_reads_ldReg : reads 0x8120 (.ldReg 1 2) = true := by decide
theorem test_reads_orReg : reads 0x8121 (.orReg 1 2) = true := by decide
theorem test_reads_andReg : reads 0x8122 (.andReg 1 2) = true := by decide
theorem test_reads_xorReg : reads 0x8123 (.xorReg 1 2) = true := by decide
theorem test_reads_addReg : reads 0x8F14 (.addReg 15 1) = true := by decide
theorem test_reads_sub : reads 0x8125 (.sub 1 2) = true := by decide
theorem test_reads_shr : reads 0x80F6 (.shr 0 15) = true := by decide
theorem test_reads_subn : reads 0x8127 (.subn 1 2) = true := by decide
theorem test_reads_shl : reads 0x812E (.shl 1 2) = true := by decide
theorem test_reads_sneReg : reads 0x9AB0 (.sneReg 10 11) = true := by decide
theorem test_reads_ldI : reads 0xA300 (.ldI 0x300) = true := by decide
theorem test_reads_jpV0 : reads 0xBFFF (.jpV0 0xFFF) = true := by decide
theorem test_reads_rnd : reads 0xC30F (.rnd 3 0x0F) = true := by decide
theorem test_reads_drw : reads 0xD01F (.drw 0 1 15) = true := by decide
theorem test_reads_skp : reads 0xE19E (.skp 1) = true := by decide
theorem test_reads_sknp : reads 0xE1A1 (.sknp 1) = true := by decide
theorem test_reads_ldVxDt : reads 0xF507 (.ldVxDt 5) = true := by decide
theorem test_reads_ldVxK : reads 0xF00A (.ldVxK 0) = true := by decide
theorem test_reads_ldDtVx : reads 0xF515 (.ldDtVx 5) = true := by decide
theorem test_reads_ldStVx : reads 0xF518 (.ldStVx 5) = true := by decide
theorem test_reads_addIVx : reads 0xF21E (.addIVx 2) = true := by decide
theorem test_reads_ldFVx : reads 0xF029 (.ldFVx 0) = true := by decide
theorem test_reads_ldBVx : reads 0xF033 (.ldBVx 0) = true := by decide
theorem test_reads_stRegs : reads 0xFF55 (.stRegs 15) = true := by decide
theorem test_reads_ldRegs : reads 0xF265 (.ldRegs 2) = true := by decide

/-- V1, V3, V5, V7, V9, V10, V12, V14, V16, V17: the unknown space. -/
theorem test_unknown_words :
    [0x0000, 0x00E1, 0x0123, 0x5121, 0x8008, 0x800F, 0x9AB1, 0xE19F, 0xF0FF, 0xFFFF].all
      (fun w => decodeTableWord 16 w == none) = true := by decide

/-- R104: the descriptor carries all six fields of R91, the family first, for an unknown word (V7) and a known one. -/
theorem test_descriptor_unknown : classify 0x5121 = ⟨.unknown, 0x5, 1, 2, 0x1, 0x21, 0x121⟩ := by decide
theorem test_descriptor_known : classify 0xD34A = ⟨.drw, 0xD, 3, 4, 0xA, 0x4A, 0x34A⟩ := by decide

/-- A short list of bytes is rejected by name, and the bytes after an instruction are given back. -/
theorem test_decodeBytes_short : decodeBytes [0x60] = .error (.truncated 1) := by rfl
theorem test_decodeBytes_rest : decodeBytes [0x6A, 0x12, 0xFF] = .ok (.ldImm 10 0x12, [0xFF]) := by rfl

/-! ## One step: dispatch (95_test_vectors 2.2) -/

theorem test_V20 : yields State.reset 0x0123 (fun t => raised 0x200 ⟨.unimpl, .none, 0⟩ t && t.curOp == 0x0123) = true := by
  decide
theorem test_V22 : step { State.reset with pc := 0xFFF } =
    .next { State.reset with pc := 0xFFF, status := ⟨.fault, .memoryOutOfRange, 0x1000⟩ } := by rfl
theorem test_V23 : stepReport { State.reset with pc := 0xFFF, status := ⟨.fault, .memoryOutOfRange, 0x1000⟩ } =
    some .halted := by rfl
theorem test_V24 : yields { State.reset with pc := 0xFFE } 0x6001 (ends 0x000 0 1) = true := by decide
theorem test_V25 : yields { State.reset with pc := 0x201 } 0x6007 (ends 0x203 0 7) = true := by decide

/-! ## One step: control flow (95_test_vectors 2.3) -/

theorem test_V31 : yields State.reset 0x1201 (ends 0x201 0 0) = true := by decide
theorem test_V33 : yields { State.reset with pc := 0xFFE } 0x2300 (fun t => ends 0x300 0 0 t && t.stack == [0x000]) = true := by
  decide
theorem test_V34 : yields { State.reset with stack := List.replicate 16 0x202 } 0x2300
    (raised 0x200 ⟨.fault, .stackOverflow, 16⟩) = true := by decide
theorem test_V35 : yields { State.reset with stack := [0x204], pc := 0x300 } 0x00EE
    (fun t => ends 0x204 0 0 t && t.stack == []) = true := by decide
theorem test_V36 : yields { State.reset with pc := 0x300 } 0x00EE (raised 0x300 ⟨.fault, .stackUnderflow, 0⟩) = true := by
  decide
theorem test_V37 : yields (regs [(3, 0x10)]) 0x3310 (ends 0x204 3 0x10) = true := by decide
theorem test_V38 : yields (regs [(3, 0x10)]) 0x3311 (ends 0x202 3 0x10) = true := by decide
theorem test_V39_equal : yields (regs [(3, 0x10)]) 0x4310 (ends 0x202 3 0x10) = true := by decide
theorem test_V39_other : yields (regs [(3, 0x10)]) 0x4311 (ends 0x204 3 0x10) = true := by decide
theorem test_V40 : yields (regs [(1, 7), (2, 7)]) 0x5120 (ends 0x204 1 7) = true := by decide
theorem test_V41_se : yields (regs [(1, 7), (2, 8)]) 0x5120 (ends 0x202 1 7) = true := by decide
theorem test_V41_sne : yields (regs [(1, 7), (2, 8)]) 0x9120 (ends 0x204 1 7) = true := by decide
theorem test_V42_sne : yields State.reset 0x9110 (ends 0x202 1 0) = true := by decide
theorem test_V43 : yields { State.reset with pc := 0xFFE } 0x3000 (ends 0x002 0 0) = true := by decide
theorem test_V44 : yields (regs [(0, 0x04)]) 0xB300 (ends 0x304 0 0x04) = true := by decide
theorem test_V45 : yields (regs [(0, 0xFF)]) 0xBFFF (ends 0x0FE 0 0xFF) = true := by decide

/-! ## One step: the register ALU (95_test_vectors 2.4) -/

theorem test_V50 : yields State.reset 0x6A12 (ends 0x202 10 0x12) = true := by decide
theorem test_V51 : yields (regs [(0, 0xFF)]) 0x7001 (fun t => ends 0x202 0 0 t && t.readV 15 == 0) = true := by decide
theorem test_V52 : yields (regs [(0, 0x10)]) 0x70FF (ends 0x202 0 0x0F) = true := by decide
theorem test_V53 : yields (regs [(2, 0x33)]) 0x8120 (ends 0x202 1 0x33) = true := by decide
theorem test_V54 : yields (regs [(1, 0xF0), (2, 0x0F), (15, 5)]) 0x8121 (fun t => ends 0x202 1 0xFF t && t.readV 15 == 5) = true := by
  decide
theorem test_V55 : yields (regs [(1, 0xF3), (2, 0x3F)]) 0x8122 (ends 0x202 1 0x33) = true := by decide
theorem test_V56 : yields (regs [(1, 0xFF), (2, 0x0F)]) 0x8123 (ends 0x202 1 0xF0) = true := by decide
theorem test_V57 : yields (regs [(0, 0xFF), (1, 1)]) 0x8014 (fun t => ends 0x202 0 0 t && t.readV 15 == 1) = true := by decide
theorem test_V59 : yields (regs [(15, 0xFF), (1, 1)]) 0x8F14 (ends 0x202 15 1) = true := by decide
theorem test_V61 : yields (regs [(1, 3), (2, 3)]) 0x8125 (fun t => ends 0x202 1 0 t && t.readV 15 == 0) = true := by decide
theorem test_V63 : yields (regs [(15, 5), (1, 3)]) 0x8F15 (ends 0x202 15 1) = true := by decide
theorem test_V64 : yields (regs [(1, 3), (2, 5)]) 0x8127 (fun t => ends 0x202 1 2 t && t.readV 15 == 1) = true := by decide
theorem test_V65 : yields (regs [(1, 5), (2, 3)]) 0x8127 (fun t => ends 0x202 1 0xFE t && t.readV 15 == 0) = true := by decide
theorem test_V68 : yields (regs [(1, 0x80), (2, 0x55)]) 0x8126
    (fun t => ends 0x202 1 0x40 t && t.readV 2 == 0x40 && t.readV 15 == 0) = true := by decide
theorem test_V71 : yields (regs [(0, 2), (15, 0xAA)]) 0x80F6 (fun t => ends 0x202 0 1 t && t.readV 15 == 0) = true := by decide
theorem test_V69 : yields (regs [(1, 0x81)]) 0x812E
    (fun t => ends 0x202 1 2 t && t.readV 2 == 2 && t.readV 15 == 1) = true := by decide
theorem test_V70 : yields (regs [(1, 0x80)]) 0x811E (fun t => ends 0x202 1 0 t && t.readV 15 == 1) = true := by decide
theorem test_V74 : yields { State.reset with rndIn := [0xAB, 0x01] } 0xC30F
    (fun t => ends 0x202 3 0x0B t && t.rndIn == [0x01]) = true := by decide

/-! ## One step: indexed memory (95_test_vectors 2.5) -/

theorem test_V80 : yields State.reset 0xA300 (fun t => ends 0x202 0 0 t && t.i == 0x300) = true := by decide
theorem test_V81 : yields (regsAt 0x300 [(2, 0x10)]) 0xF21E (fun t => ends 0x202 2 0x10 t && t.i == 0x310) = true := by decide
theorem test_V82 : yields (regsAt 0xFFF [(0, 1)]) 0xF01E (fun t => ends 0x202 15 0 t && t.i == 0x000) = true := by decide
theorem test_V83 : yields (regs [(0, 0x0A)]) 0xF029 (fun t => ends 0x202 0 0x0A t && t.i == 0x032) = true := by decide
theorem test_V85 : yields (regs [(0, 0xFF)]) 0xF029 (fun t => ends 0x202 0 0xFF t && t.i == 0x4FB) = true := by decide
theorem test_V90 : yields (regsAt 0xFFD [(0, 0x7B)]) 0xF033
    (fun t => ends 0x202 0 0x7B t && t.mem.readList 0xFFD 3 == [1, 2, 3] && t.i == 0xFFD) = true := by decide
theorem test_V91 : yields (regsAt 0xFFE []) 0xF033 (raised 0x200 ⟨.fault, .memoryOutOfRange, 0x1000⟩) = true := by decide
theorem test_V93 : yields (regsAt 0x400 [(0, 1), (1, 2), (2, 3)]) 0xF255
    (fun t => ends 0x202 0 1 t && t.mem.readList 0x400 4 == [1, 2, 3, 0] && t.i == 0x403) = true := by decide
theorem test_V95 : yields (regsAt 0xFF1 []) 0xFF55
    (fun t => raised 0x200 ⟨.fault, .memoryOutOfRange, 0x1000⟩ t && t.i == 0xFF1) = true := by decide
theorem test_V96 : yields { regsAt 0x300 [(3, 9)] with mem := [(0x300, 2), (0x301, 5), (0x302, 4)] } 0xF265
    (fun t => ends 0x202 3 9 t && [t.readV 0, t.readV 1, t.readV 2] == [2, 5, 4] && t.i == 0x303) = true := by decide
theorem test_V98 : yields (regsAt 0xFFF []) 0xF165 (raised 0x200 ⟨.fault, .memoryOutOfRange, 0x1000⟩) = true := by decide

/-! ## One step: the display (95_test_vectors 2.6) -/

/-- The pixels of the first `w` columns of row `r`, column 0 first. -/
def rowPixels (t : State) (w : Nat) (r : Fin 32) : List Bool := (List.range w).map (fun c => t.disp.pix (Fin.ofNat 64 c) r)

theorem test_V100 : yields { State.reset with disp := State.reset.disp.set 3 0xFF } 0x00E0
    (fun t => ends 0x202 15 0 t && t.disp == State.reset.disp && t.dirty) = true := by decide
theorem test_V101 : yields State.reset 0xD015
    (fun t => ends 0x202 15 0 t && t.dirty &&
      rowPixels t 5 0 == [true, true, true, true, false] && rowPixels t 5 1 == [true, false, false, true, false] &&
      rowPixels t 5 4 == [true, true, true, true, false] && rowPixels t 5 5 == [false, false, false, false, false]) = true := by
  decide
theorem test_V103 : yields { regsAt 0x300 [(0, 0x40), (1, 0x20)] with mem := [(0x300, 0x01)] } 0xD011
    (fun t => ends 0x202 15 0 t && rowPixels t 9 0 == [false, false, false, false, false, false, false, true, false]) = true := by
  decide

/-! ## One step: timers and keys (95_test_vectors 2.7) -/

theorem test_V110 : yields { State.reset with dt := 0x3C } 0xF507 (ends 0x202 5 0x3C) = true := by decide
theorem test_V111 : yields (regs [(5, 0x3C)]) 0xF515 (fun t => ends 0x202 5 0x3C t && t.dt == 0x3C && t.st == 0) = true := by
  decide
theorem test_V112 : yields (regs [(5, 0x10)]) 0xF518 (fun t => ends 0x202 5 0x10 t && t.st == 0x10 && t.dt == 0) = true := by
  decide
theorem test_V113_skp : yields { regs [(1, 5)] with key := 0x0020 } 0xE19E (ends 0x204 1 5) = true := by decide
theorem test_V113_sknp : yields { regs [(1, 5)] with key := 0x0020 } 0xE1A1 (ends 0x202 1 5) = true := by decide
theorem test_V114_sknp : yields (regs [(1, 5)]) 0xE1A1 (ends 0x204 1 5) = true := by decide
theorem test_V115 : yields (regs [(1, 0x10)]) 0xE19E (raised 0x200 ⟨.fault, .keyIndexOutOfRange, 0x0010⟩) = true := by decide
theorem test_V116 : yields State.reset 0xF20A (fun t => raised 0x200 ⟨.waitKey, .none, 0⟩ t && t.curOp == 0xF20A) = true := by
  decide
theorem test_V117 : yields { State.reset with key := 0x0088 } 0xF20A (ends 0x202 2 3) = true := by decide

/-! ## The machine over its parameters -/

/-- One step of the word under these parameters answers a next state that passes the check. -/
def yieldsWith (p : Params) (s : State) (op : Nat) (check : State → Bool) : Bool :=
  match stepWith p (s.withFetchWord 16 op) with
  | .next t => check t
  | .fault _ => false
  | .refused _ => false

/-- V73: a whole step in the compatibility mode. -/
theorem test_V73 : yieldsWith { hardware with shiftWritesVy := false } (regs [(1, 0x81)]) 0x8126
    (fun t => ends 0x202 1 0x40 t && t.readV 2 == 0 && t.readV 15 == 1) = true := by decide

/-- With FLAG_LAST = false the result of V59 wins over its flag (42_alu R181). -/
theorem test_V59_flag_first : yieldsWith { hardware with flagLast := false } (regs [(15, 0xFF), (1, 1)]) 0x8F14
    (ends 0x202 15 0) = true := by decide

/-- With STACK_DEPTH = 1 the second call overflows (10_state R27). -/
theorem test_shallow_stack : yieldsWith { hardware with stackDepth := 1 } { State.reset with stack := [0x202] } 0x2300
    (raised 0x200 ⟨.fault, .stackOverflow, 1⟩) = true := by decide

/-- With another KEY_WAIT_PICK, V117 stores the other key (45_timers_input R305). -/
theorem test_V117_highest : yieldsWith { hardware with keyWaitPick := fun k ks => ks.getLastD k }
    { State.reset with key := 0x0088 } 0xF20A (ends 0x202 2 7) = true := by decide

/-! ## The ports -/

/-- D1: the disassembler. -/
theorem test_D1 : disassemble true [0x6A, 0x12, 0x00, 0xE0, 0x12, 0x34, 0xF1, 0x0A, 0x00, 0x00, 0xFF] =
    ["#200 : LD VA,12 (6A12)", "#202 : CLS (00E0)", "#204 : JP 234 (1234)", "#206 : LD V1,K (F10A)",
     "#208 : UNKNOWN (0000)"] := by decide

/-- A snapshot reads the flag and clears it, and nothing else (10_state R43). -/
theorem test_snapshot : snapshot { State.reset with dirty := true, dt := 7 } =
    (⟨State.reset.disp, true⟩, { State.reset with dt := 7 }) := by rfl

/-- A tick decrements a timer that is not 0 (45_timers_input R308). -/
theorem test_tick : tickTimers { State.reset with dt := 7, st := 0 } = { State.reset with dt := 6, st := 0 } := by rfl

/-- A load is legal before the first step only (10_state R44). -/
theorem test_load_after_step : runEvents true [.load 0x200 0x60, .load 0x201 0x07, .step, .load 0x202 0] State.reset =
    .refused (.loadAfterStart 0x202) := by rfl

/-! ## Witnesses -/

theorem witness_EncodeInvertsDecode : decode 0x8126 = .ok (.shr 1 2) := by rfl
theorem witness_ClassifierSelectsTheTableRow :
    (⟨.shl, 0x800E, 0xF00F⟩ : Row) ∈ opcodeTable ∧ Row.selects ⟨.shl, 0x800E, 0xF00F⟩ 0x812E = true ∧
    Row.selects ⟨.shl, 0x800E, 0xF00F⟩ 0x812F = false := by decide
theorem witness_RejectedWordsAreTheUnknownSpace :
    [0x00E1, 0x5121, 0x8008, 0x800F, 0x9AB1, 0xE19F, 0xF0FF].all
      (fun w => decode (BitVec.ofNat 16 w) = .error (.unknownOpcode (BitVec.ofNat 16 w))) = true := by decide

/-- A state whose next word is `6001`, at the last address a fetch can start from. -/
def topState : State := { State.reset with pc := 0xFFE, mem := [(0xFFE, 0x60), (0xFFF, 0x01)] }

theorem witness_StepRunsTheDecodedInstruction :
    topState.status.state ≠ .fault ∧ topState.pc.toNat < 0xFFF ∧
    decode (bigEndian (topState.mem.read topState.pc.toNat) (topState.mem.read (topState.pc.toNat + 1))) =
      .ok (.ldImm 0 1) := by decide
theorem witness_UnknownOpcodeReportsUnimplemented :
    State.reset.status.state ≠ .fault ∧ State.reset.pc.toNat < 0xFFF ∧
    decode (bigEndian (State.reset.mem.read State.reset.pc.toNat) (State.reset.mem.read (State.reset.pc.toNat + 1))) =
      .error (.unknownOpcode 0) := by decide
theorem witness_FetchAtTheTopFaults :
    ({ State.reset with pc := 0xFFF } : State).status.state ≠ .fault ∧
    ({ State.reset with pc := 0xFFF } : State).pc.toNat = 0xFFF := by decide

/-- The state that a return on the empty stack leaves. -/
def faulted : State := { State.reset with status := ⟨.fault, .stackUnderflow, 0⟩ }

theorem witness_HaltedUntilReset :
    faulted.status.state = .fault ∧ Event.reset ∉ [Event.step, .keyIn 1, .tmrWrite true false 3, .snap] ∧
    runEvents false [.step, .keyIn 1, .tmrWrite true false 3, .snap] faulted =
      .next { faulted with key := 1, dt := 3 } :=
  ⟨by rfl, by decide, by rfl⟩
theorem witness_PlacedWordRunsNext :
    topState.mem.wf = true ∧ topState.status.state ≠ .fault ∧ topState.pc.toNat < 0xFFF := by decide
theorem witness_PlacedWordRunsNext_halted : faulted.mem.wf = true ∧ faulted.status.state = .fault := by decide
theorem topState_inv : topState.Inv := by decide
theorem witness_StepKeepsInvariant :
    topState.Inv ∧ step topState = .next { topState with v := topState.v.set 0 1, pc := 0, curOp := 0x6001 } :=
  ⟨topState_inv, by rfl⟩
theorem witness_EveryTransactionKeepsInvariant :
    topState.Inv ∧ applyEvent true (.load 0xFFF 0x02) topState =
      .next { topState with mem := [(0xFFE, 0x60), (0xFFF, 0x02)] } := ⟨topState_inv, by rfl⟩

/-- Parameters that differ from this hardware's in every field that may. -/
def otherParams : Params :=
  ⟨1, List.replicate 80 0xFF, false, false, fun k ks => ks.getLastD k, false⟩

/-- A state that satisfies the invariant under those parameters, its stack full, before a call. -/
def shallow : State := { State.reset with stack := [0x202], mem := [(0x200, 0x23)] }

theorem witness_EveryTransactionKeepsInvariant_parameters :
    otherParams.wellFormed = true ∧ shallow.InvWith otherParams ∧
    applyEventWith otherParams false .step shallow =
      .next { shallow with curOp := 0x2300, status := ⟨.fault, .stackOverflow, 1⟩ } := ⟨by decide, by decide, by rfl⟩
theorem witness_ReachableStatesSatisfyInvariant_parameters :
    Params.wellFormed { otherParams with font := fontTable } = true ∧
    ReachableWith { otherParams with font := fontTable } { shallow with mem := [(0x200, 0x23), (0x201, 0x01)] } :=
  ⟨by decide, .boot [0x23, 0x01] shallow _ (by decide) (by rfl)⟩
theorem witness_ReachableStatesSatisfyInvariant :
    Reachable { State.reset with mem := [(0x200, 0x60), (0x201, 0x07)], v := State.reset.v.set 0 7, pc := 0x202,
                                 curOp := 0x6007 } :=
  .event .step _ _ (.boot [0x60, 0x07] State.reset { State.reset with mem := [(0x200, 0x60), (0x201, 0x07)] } (by decide) (by rfl))
    (by rfl)
theorem witness_EqualReadsGiveEqualMemories :
    Memory.wf ((Memory.write [] 0xFFF 1).write 0x000 2) = true ∧ Memory.wf ((Memory.write [] 0x000 2).write 0xFFF 1) = true ∧
    ∀ a : Nat, a < 4096 →
      Memory.read ((Memory.write [] 0xFFF 1).write 0x000 2) a = Memory.read ((Memory.write [] 0x000 2).write 0xFFF 1) a := by
  refine ⟨by decide, by decide, fun a _ => ?_⟩
  rw [show (Memory.write [] 0xFFF 1).write 0x000 2 = (Memory.write [] 0x000 2).write 0xFFF 1 by decide]

/-- A full call stack, `I` near the top of memory and a register that names no key. -/
def edge : State :=
  { State.reset with stack := List.replicate 16 0x202, i := 0xFFE, v := State.reset.v.set 1 0x10 }

theorem witness_FaultingStepsChangeOnlyStatus :
    exec .ret State.reset = .next faulted ∧ faulted.status.state = .fault ∧
    step { State.reset with pc := 0xFFF } =
      .next { State.reset with pc := 0xFFF, status := ⟨.fault, .memoryOutOfRange, 0x1000⟩ } :=
  ⟨by rfl, by rfl, by rfl⟩

/-- Whether the instruction raises this cause in that state. -/
def raises (i : Instr) (s : State) (c : Cause) : Bool :=
  match exec i s with
  | .next t => t.status.state == .fault && t.status.cause == c
  | .fault _ => false
  | .refused _ => false

theorem witness_CausesByInstruction :
    raises .ret State.reset .stackUnderflow ∧ raises (.call 0x300) edge .stackOverflow ∧
    raises (.drw 0 0 3) edge .memoryOutOfRange ∧ raises (.ldBVx 0) edge .memoryOutOfRange ∧
    raises (.stRegs 2) edge .memoryOutOfRange ∧ raises (.ldRegs 2) edge .memoryOutOfRange ∧
    raises (.skp 1) edge .keyIndexOutOfRange ∧ raises (.sknp 1) edge .keyIndexOutOfRange := by decide
theorem witness_no_cause_at_the_bound :
    raises (.drw 0 0 2) edge .memoryOutOfRange = false ∧ raises (.drw 0 0 0) edge .memoryOutOfRange = false ∧
    raises (.stRegs 1) edge .memoryOutOfRange = false ∧ raises (.ldRegs 1) edge .memoryOutOfRange = false := by decide

theorem witness_StatusAfterAnInstruction :
    exec (.ldVxK 0) State.reset = .next { State.reset with status := ⟨.waitKey, .none, 0⟩ } ∧
    (∀ k : Reg, State.reset.keyDown k = false) ∧
    exec (.jp 0x234) State.reset = .next { State.reset with pc := 0x234 } :=
  ⟨by rfl, by decide, by rfl⟩
theorem witness_VfWrittenOnlyAsFlagOrDestination :
    exec (.ldBVx 15) (regsAt 0x300 []) = .next { regsAt 0x300 [] with pc := 0x202 } ∧ mayWriteVF (.ldBVx 15) = false :=
  ⟨by rfl, by rfl⟩

/-- Whether the instruction answers a next state that passes the check. -/
def answers (i : Instr) (s : State) (check : State → Bool) : Bool :=
  match exec i s with
  | .next t => check t
  | .fault _ => false
  | .refused _ => false

/-- A state in which every element an instruction may write is about to change. -/
def busy : State := { regsAt 0x300 [(0, 0x12)] with stack := [0x204], rndIn := [0xAB], disp := State.reset.disp.set 0 1 }

theorem witness_OnlyTheNamedInstructionsWrite :
    answers (.ldBVx 0) busy (fun t => t.mem != busy.mem) ∧ answers (.stRegs 0) busy (fun t => t.mem != busy.mem) ∧
    answers .ret busy (fun t => t.stack != busy.stack) ∧ answers (.call 0x300) busy (fun t => t.stack != busy.stack) ∧
    answers .cls busy (fun t => t.disp != busy.disp && t.dirty != busy.dirty) ∧
    answers (.drw 1 1 0) busy (fun t => t.dirty != busy.dirty) ∧ answers (.ldDtVx 0) busy (fun t => t.dt != busy.dt) ∧
    answers (.ldStVx 0) busy (fun t => t.st != busy.st) ∧ answers (.rnd 0 0) busy (fun t => t.rndIn != busy.rndIn) ∧
    answers (.rnd 0 0) State.reset (fun t => t.rndCount != State.reset.rndCount) := by decide
theorem witness_PcFollowsItsUpdateKind :
    raises .ret State.reset .stackUnderflow ∧ answers (.ldI 0) busy (fun t => t.status.state == .run) ∧
    pcKind (.ldI 0) = .seq ∧ answers (.seImm 0 0x12) busy (fun t => t.status.state == .run) ∧
    pcKind (.seImm 0 0x12) = .skip ∧ answers .ret busy (fun t => t.status.state == .run) := by decide
theorem witness_UnreadElementsDoNotMatter :
    exec (.ldVxDt 0) State.reset = .next { State.reset with pc := 0x202 } :=
  by rfl
theorem witness_KeysAreTheHostsAndReadByThree :
    exec (.ldVxDt 0) State.reset = .next { State.reset with pc := 0x202 } ∧ readsKeys (.ldVxDt 0) = false ∧
    step topState = .next { topState with v := topState.v.set 0 1, pc := 0, curOp := 0x6001 } :=
  ⟨by rfl, by rfl, by rfl⟩
theorem witness_KeysAreTheHostsAndReadByThree_host :
    (∀ keys, Event.tick ≠ .keyIn keys) ∧ Event.tick ≠ .reset ∧
    applyEvent false .tick { State.reset with dt := 7 } = .next { State.reset with dt := 6 } :=
  ⟨nofun, nofun, by rfl⟩
theorem witness_IndexRegisterUse :
    answers (.ldI 0xFFF) State.reset (fun t => t.i != State.reset.i) ∧ State.reset.i.toNat < 4096 ∧
    readsI (.ldI 0xFFF) = false := by decide
theorem witness_selected_words :
    (0x6FFF#16 &&& 0xF000#16 = 0x6000#16) ∧ (0x8FF0#16 &&& 0xF00F#16 = 0x8000#16) ∧
    (0xBFFF#16 &&& 0xF000#16 = 0xB000#16) ∧ (0xAFFF#16 &&& 0xF000#16 = 0xA000#16) ∧
    (0xFF07#16 &&& 0xF0FF#16 = 0xF007#16) ∧ (0xFF15#16 &&& 0xF0FF#16 = 0xF015#16) ∧
    (0xFF18#16 &&& 0xF0FF#16 = 0xF018#16) := by decide
theorem witness_flag_clauses : (14 : Reg) ≠ VF ∧ hardware.flagLast = true ∧ VF ∉ ([14] : List Reg) := by decide
theorem witness_RandomIsTheMaskedDraw :
    busy.rndIn = 0xAB :: [] ∧ State.reset.rndIn = [] ∧ (0x0F : Byte).getLsbD 7 = false := by decide
theorem witness_ReturnPopsIntoPc : busy.stack = [] ++ [0x204] ∧ State.reset.stack = [] := by decide
theorem witness_CallPushesTheReturnAddress :
    ({ State.reset with stack := List.replicate 15 0x202 } : State).stack.length < 16 ∧ edge.stack.length = 16 := by decide
theorem witness_CallPushesTheReturnAddress_parameters :
    State.reset.stack.length < otherParams.stackDepth ∧ shallow.stack.length = otherParams.stackDepth := by decide
theorem witness_CallThenReturnComesBack :
    State.reset.stack.length < 16 ∧ exec (.call 0x300) State.reset = .next { State.reset with pc := 0x300, stack := [0x202] } ∧
    ({ busy with stack := [0x202] } : State).stack = [0x202] :=
  ⟨by decide, by rfl, by rfl⟩
theorem witness_RegisterSkips : busy.readV 0 = 0x12 ∧ busy.readV 0 ≠ 0x13 ∧ busy.readV 1 = busy.readV 2 ∧
    busy.readV 0 ≠ busy.readV 1 := by decide
theorem witness_BcdStoresDecimalDigits :
    ({ busy with i := 0xFFD } : State).mem.wf = true ∧ ({ busy with i := 0xFFD } : State).i.toNat ≤ 0xFFD := by decide
theorem witness_BlockTransfers :
    ({ busy with i := 0xFF0 } : State).mem.wf = true ∧ ({ busy with i := 0xFF0 } : State).i.toNat + (15 : Reg).val ≤ 0xFFF := by
  decide
theorem witness_IndexedAccessPastTheTopFaults :
    edge.i.toNat < 4096 ∧ 0xFFD < edge.i.toNat ∧ 0xFFF < edge.i.toNat + (2 : Reg).val ∧
    0 < (3 : Nibble).toNat ∧ 0xFFF < edge.i.toNat + (3 : Nibble).toNat - 1 := by decide
theorem witness_BlockStoreThenLoadRestores :
    busy.mem.wf = true ∧ busy.i.toNat + (1 : Reg).val ≤ 0xFFF ∧
    exec (.stRegs 1) busy = .next { busy with mem := [(0x300, 0x12)], i := 0x302, pc := 0x202 } ∧
    ({ State.reset with mem := [(0x300, 0x12)], i := 0x300 } : State).i = busy.i :=
  ⟨by rfl, by decide, by rfl, by rfl⟩
theorem witness_DrawXorsTheSprite :
    (0 : Nibble).toNat = 0 ∧ edge.i.toNat + (2 : Nibble).toNat - 1 ≤ 0xFFF := by decide

/-- One lit pixel at the place where a one-row sprite goes. -/
def canvasState : State := { State.reset with i := 0x300, mem := [(0x300, 0x80)] }

theorem witness_DrawingTwiceErases :
    (0 : Reg) ≠ VF ∧ canvasState.i.toNat + (1 : Nibble).toNat - 1 ≤ 0xFFF ∧
    exec (.drw 0 0 1) canvasState =
      .next { canvasState with disp := State.reset.disp.set 0 1, dirty := true, pc := 0x202 } ∧
    exec (.drw 0 0 1) { canvasState with disp := State.reset.disp.set 0 1, dirty := true, pc := 0x202 } =
      .next { canvasState with dirty := true, pc := 0x204, v := State.reset.v.set 15 1 } :=
  ⟨by decide, by decide, by rfl, by rfl⟩
theorem witness_spriteCovers : spriteCovers canvasState 0 0 1 0 0 = true ∧ canvasState.disp.pix 0 0 = false := by decide
theorem witness_KeySkips :
    ((regs [(1, 15)]).readV 1).toNat = (15 : Reg).val ∧ 0xF < (edge.readV 1).toNat := by decide
theorem witness_KeyWaitTakesTheLowestPressed :
    (0x0088 : BitVec 16).getLsbD (3 : Reg).val = true ∧ (∀ j : Reg, j < 3 → (0x0088 : BitVec 16).getLsbD j.val = false) ∧
    State.reset.key = 0 := by decide
theorem witness_KeyWait_parameters :
    ([3, 7] : List Reg).Pairwise (· < ·) ∧
    ∀ j : Reg, j ∈ ([3, 7] : List Reg) ↔ ({ State.reset with key := 0x0088 } : State).key.getLsbD j.val = true := by decide
theorem witness_ParametersReachOnlyWhatNamesThem :
    readsParams (.drw 0 1 5) = false ∧ otherParams.stackDepth = { hardware with stackDepth := 1 }.stackDepth ∧
    otherParams.flagLast = { hardware with flagLast := false }.flagLast ∧
    otherParams.shiftWritesVy = { hardware with shiftWritesVy := false }.shiftWritesVy ∧
    otherParams.keyWaitPick = { hardware with keyWaitPick := fun k ks => ks.getLastD k }.keyWaitPick :=
  ⟨rfl, rfl, rfl, rfl, rfl⟩
theorem witness_BootPlacesTheRom :
    (List.replicate 3584 (0 : Byte)).length ≤ 3584 ∧ 3584 < (List.replicate 3585 (0 : Byte)).length := by
  simp only [List.length_replicate]; decide
theorem witness_ResetFollowsItsParameters :
    Params.wellFormed { hardware with resetZero := false, font := List.replicate 80 0 } = true ∧ busy.mem.wf = true ∧
    ({ hardware with resetZero := false, font := List.replicate 80 0 } : Params).resetZero = false := by decide
theorem witness_DisassemblerPrintsOneLineAnOpcode : 0 < [(0x60 : Byte), 0x07, 0xFF].length / 2 := by decide

end Sys2Proof.Tests
end

/-! ## The scope statements (00_scope): the reset procedure and what each parameter reaches -/

namespace Sys2Proof.Machine

/-! ### The reset procedure, element by element (70_reset R371) -/

@[simp] theorem resetElements_pc (p : Params) (u : State) : (resetElements p u).pc = 0x200 := by
  unfold resetElements; split <;> rfl

@[simp] theorem resetElements_disp (p : Params) (u : State) : (resetElements p u).disp = Display.clear := by
  unfold resetElements; split <;> rfl

@[simp] theorem resetElements_status (p : Params) (u : State) : (resetElements p u).status = Status.ok := by
  unfold resetElements; split <;> rfl

/-- Without `RESET_ZERO` the elements are those of `u` but for the three the source gives a value (D20). -/
theorem resetElements_arbitrary {p : Params} (hz : p.resetZero = false) (u : State) :
    resetElements p u = { u with pc := 0x200, disp := Display.clear, status := Status.ok } := by
  simp [resetElements, hz]

/-- Memory is canonical before the font is seeded: it is the reset contents or what `u` held. -/
theorem resetElements_mem_wf (p : Params) {u : State} (hu : u.mem.wf = true) : (resetElements p u).mem.wf = true := by
  unfold resetElements
  split
  · rfl
  · exact hu

/-- Seeding the font changes memory alone. -/
theorem resetMachine_eq (p : Params) (u : State) :
    resetMachine p u =
      { resetElements p u with mem := (resetElements p u).mem.writeList Config.fontBase p.font } := rfl

/-- A well-formed font has 16 glyphs of 5 bytes (20_memory R76). -/
theorem font_length_of_wellFormed {p : Params} (hp : p.wellFormed = true) : p.font.length = 80 := by
  simp only [Params.wellFormed, Bool.and_eq_true, beq_iff_eq] at hp
  exact hp.1

/-- After reset the parameter's font lies at 0x000..0x04F, over what memory held. -/
theorem resetMachine_read {p : Params} {u : State} (hp : p.wellFormed = true) (hu : u.mem.wf = true) (a : Nat) :
    (resetMachine p u).mem.read a = if a < 80 then p.font.getD a 0 else (resetElements p u).mem.read a := by
  have hlen := font_length_of_wellFormed hp
  rw [resetMachine_eq, Memory.read_writeList a p.font (resetElements_mem_wf p hu) (by simp [hlen, Config.fontBase])]
  simp [hlen, Config.fontBase]

/-- Without `RESET_ZERO` the registers, `I`, the stack and the keys keep what they held (D20). -/
theorem resetMachine_keeps {p : Params} (hz : p.resetZero = false) (u : State) :
    (resetMachine p u).v = u.v ∧ (resetMachine p u).i = u.i ∧ (resetMachine p u).stack = u.stack ∧
      (resetMachine p u).key = u.key := by
  simp [resetMachine_eq, resetElements_arbitrary hz]

/-- Settles O58: memory by the read after the font is seeded, the other elements by what step 1 of the procedure leaves. -/
theorem resetFollowsItsParameters : Obligations.ResetFollowsItsParameters := by
  intro p u hp hu
  refine ⟨fun k hk => ?_, ?_, fun c r => ?_, ?_, fun hz => ?_⟩
  · rw [resetMachine_read hp hu, if_pos hk]
  · simp [resetMachine_eq]
  · simp [resetMachine_eq]
  · simp [resetMachine_eq, Status.ok]
  · obtain ⟨hv, hi, hstack, hkey⟩ := resetMachine_keeps hz u
    refine ⟨hv, hi, hstack, hkey, fun a ha => ?_⟩
    rw [resetMachine_read hp hu, if_neg (Nat.not_lt.2 ha), resetElements_arbitrary hz]

/-! ### What each parameter reaches (10_state R39) -/

/-- A call reads `STACK_DEPTH` alone. -/
theorem callWith_congr {p q : Params} (h : p.stackDepth = q.stackDepth) : callWith p = callWith q := by
  funext nnn s; simp only [callWith, push, h]

/-- Result and flag read `FLAG_LAST` alone. -/
theorem loadFlagged_congr {p q : Params} (h : p.flagLast = q.flagLast) : loadFlagged p = loadFlagged q := by
  funext dests r flag s; simp only [loadFlagged, State.writeFlagged, h]

/-- The destinations of a shift read `SHIFT_WRITES_VY` alone. -/
theorem shiftDests_congr {p q : Params} (h : p.shiftWritesVy = q.shiftWritesVy) : shiftDests p = shiftDests q := by
  funext x y; simp only [shiftDests, h]

/-- A wait for a key reads `KEY_WAIT_PICK` alone. -/
theorem waitKey_congr {p q : Params} (h : p.keyWaitPick = q.keyWaitPick) : waitKey p = waitKey q := by
  funext x s; simp only [waitKey, h]

/-- No execute phase reads `FONT` or `RESET_ZERO`. -/
theorem execWith_font_resetZero (p : Params) (font : List Byte) (z : Bool) :
    execWith { p with font := font, resetZero := z } = execWith p := by
  funext i s; cases i <;> rfl

/-- No step reads `FONT` or `RESET_ZERO`. -/
theorem stepWith_font_resetZero (p : Params) (font : List Byte) (z : Bool) :
    stepWith { p with font := font, resetZero := z } = stepWith p := by
  funext s; simp only [stepWith, execWith_font_resetZero]

/-- Settles O60: the machine at the defaults, then one congruence per shared operation that names a parameter. -/
theorem parametersReachOnlyWhatNamesThem : Obligations.ParametersReachOnlyWhatNamesThem := by
  refine ⟨fun i s => by rw [execWith_hardware],
    fun s => ⟨by rw [stepWith_hardware], fun loading => applyEvent_step loading s⟩,
    fun p i s hi => execWith_eq_exec p s hi,
    fun p q s => ⟨fun hd nnn => ?_, fun hf x y => ⟨?_, ?_, ?_⟩, fun hf hv x y => ⟨?_, ?_⟩, fun hk x => ?_,
      fun font z => by rw [stepWith_font_resetZero]⟩⟩
  · simp only [execWith, callWith_congr hd]
  · simp only [execWith, addWith, loadFlagged_congr hf]
  · simp only [execWith, subtractWith, loadFlagged_congr hf]
  · simp only [execWith, subtractWith, loadFlagged_congr hf]
  · simp only [execWith, shiftRight, loadFlagged_congr hf, shiftDests_congr hv]
  · simp only [execWith, shiftLeft, loadFlagged_congr hf, shiftDests_congr hv]
  · simp only [execWith, waitKey_congr hk]

end Sys2Proof.Machine

/-! ## The state family (10_state): what an instruction answers, said once

Every instruction either stops with a status (`haltStatus`) and changes nothing else, or completes (`completed`) with the
status Ok. `execWith_next` ties the two to the model; the statements about all instructions are read off them. -/

namespace Sys2Proof.Machine

/-- The status of an indexed access of `n` bytes that reaches past the top (43_index_memory R236, 40_dispatch R130). -/
def indexHalt (s : State) (n : Nat) : Option Status :=
  if inRange s.i.toNat n then none
  else some ⟨.fault, .memoryOutOfRange, BitVec.ofNat 16 (lowestOutOfRange s.i.toNat)⟩

/-- The status with which an instruction stops, changing nothing else: a fatal condition, or the wait for a key. -/
def haltStatus (p : Params) (i : Instr) (s : State) : Option Status :=
  match i with
  | .ret => if s.stack = [] then some ⟨.fault, .stackUnderflow, 0⟩ else none
  | .call _ =>
    if p.stackDepth ≤ s.stack.length then some ⟨.fault, .stackOverflow, BitVec.ofNat 16 s.stack.length⟩ else none
  | .skp x | .sknp x =>
    if 16 ≤ (s.readV x).toNat then some ⟨.fault, .keyIndexOutOfRange, s.readWide x⟩ else none
  | .ldVxK _ => if pressedKeys s = [] then some ⟨.waitKey, .none, 0⟩ else none
  | .drw _ _ n => indexHalt s n.toNat
  | .ldBVx _ => indexHalt s 3
  | .stRegs x | .ldRegs x => indexHalt s (blockSize x)
  | _ => none

/-- The state an instruction computes when it does not stop, its status apart. -/
def completed (p : Params) (i : Instr) (s : State) : State :=
  match i with
  | .cls => (s.writeDisp Display.clear).seq
  | .ret => { s with stack := s.stack.dropLast, pc := mask12 ((s.stack.getLastD 0).setWidth 16) }
  | .jp nnn => s.writePc (address nnn)
  | .call nnn =>
    { s with stack := s.stack ++ [(mask12 (mask12 (s.pc + 2))).setWidth 12], pc := mask12 (address nnn) }
  | .seImm x nn => s.writePc (s.pc + if s.readV x == nn then 4 else 2)
  | .sneImm x nn => s.writePc (s.pc + if s.readV x != nn then 4 else 2)
  | .seReg x y => s.writePc (s.pc + if s.readV x == s.readV y then 4 else 2)
  | .sneReg x y => s.writePc (s.pc + if s.readV x != s.readV y then 4 else 2)
  | .ldImm x nn => (s.writeV x nn).seq
  | .addImm x nn => (s.writeV x (s.readV x + nn)).seq
  | .ldReg x y => (s.writeV x (s.readV y)).seq
  | .orReg x y => (s.writeV x (s.readV x ||| s.readV y)).seq
  | .andReg x y => (s.writeV x (s.readV x &&& s.readV y)).seq
  | .xorReg x y => (s.writeV x (s.readV x ^^^ s.readV y)).seq
  | .addReg x y => (s.writeFlagged p [x] (s.readV x + s.readV y) (carryFlag (s.readV x) (s.readV y))).seq
  | .sub x y => (s.writeFlagged p [x] (s.readV x - s.readV y) (greaterFlag (s.readV x) (s.readV y))).seq
  | .subn x y => (s.writeFlagged p [x] (s.readV y - s.readV x) (greaterFlag (s.readV y) (s.readV x))).seq
  | .shr x y => (s.writeFlagged p (shiftDests p x y) (s.readV x >>> 1) (lsbFlag (s.readV x))).seq
  | .shl x y => (s.writeFlagged p (shiftDests p x y) (s.readV x <<< 1) (msbFlag (s.readV x))).seq
  | .ldI nnn => (s.writeI (address nnn)).seq
  | .jpV0 nnn => s.writePc (s.readWide V0 + address nnn)
  | .rnd x nn =>
    { s with v := s.v.set x (rndByte s &&& nn), rndIn := s.rndIn.tail,
             rndCount := if s.rndIn = [] then s.rndCount + 1 else s.rndCount, pc := mask12 (s.pc + 2) }
  | .drw x y n => ((s.writeDisp (drawn x y n s).1).writeV VF (flagByte (drawn x y n s).2)).seq
  | .skp x => s.writePc (s.pc + if s.key.getLsbD (s.readV x).toNat then 4 else 2)
  | .sknp x => s.writePc (s.pc + if !s.key.getLsbD (s.readV x).toNat then 4 else 2)
  | .ldVxDt x => (s.writeV x s.dt).seq
  | .ldVxK x => (s.writeV x (keyByte (p.keyWaitPick ((pressedKeys s).headD 0) (pressedKeys s).tail))).seq
  | .ldDtVx x => (s.writeDt (s.readV x)).seq
  | .ldStVx x => (s.writeSt (s.readV x)).seq
  | .addIVx x => (s.writeI (s.i + s.readWide x)).seq
  | .ldFVx x => (s.writeI (glyphAddress (s.readV x))).seq
  | .ldBVx x => { s with mem := s.mem.writeList s.i.toNat (bcdDigits (s.readV x)), pc := mask12 (s.pc + 2) }
  | .stRegs x =>
    { s with mem := s.mem.writeList s.i.toNat (s.readBlock x), i := mask12 (s.i + BitVec.ofNat 16 (blockSize x)),
             pc := mask12 (s.pc + 2) }
  | .ldRegs x => ((s.writeBlock (s.mem.readList s.i.toNat (blockSize x))).advanceI x).seq

/-- The next state of an instruction. -/
def answer (p : Params) (i : Instr) (s : State) : State :=
  match haltStatus p i s with
  | some st => { s with status := st }
  | none => { completed p i s with status := Status.ok }

/-- An instruction stops with a status alone, or completes with the status Ok. -/
theorem answer_cases (p : Params) (i : Instr) (s : State) :
    (∃ st, haltStatus p i s = some st ∧ answer p i s = { s with status := st }) ∨
    (haltStatus p i s = none ∧ answer p i s = { completed p i s with status := Status.ok }) := by
  unfold answer
  cases h : haltStatus p i s with
  | some st => exact .inl ⟨st, rfl, rfl⟩
  | none => exact .inr ⟨rfl, rfl⟩

theorem answer_of_halt (p : Params) (i : Instr) {s : State} {st : Status} (h : haltStatus p i s = some st) :
    answer p i s = { s with status := st } := by
  rw [answer, h]

theorem answer_of_completes (p : Params) (i : Instr) {s : State} (h : haltStatus p i s = none) :
    answer p i s = { completed p i s with status := Status.ok } := by
  rw [answer, h]

/-! ### The instructions that branch: those that can stop, and the draw -/

theorem execRet_answer (p : Params) (s : State) : execRet s = .next (answer p .ret s) := by
  rcases pop_cases s with ⟨hs, hp⟩ | ⟨init, a, hs, hp⟩
  · rw [answer_of_halt p .ret (if_pos hs), execRet, hp]; rfl
  · rw [answer_of_completes p .ret (if_neg (by simp [hs])), execRet, hp]
    simp [completed, hs, finish, complete, State.writePc]

theorem callWith_answer (p : Params) (nnn : Addr) (s : State) : callWith p nnn s = .next (answer p (.call nnn) s) := by
  rcases push_cases p (mask12 (s.pc + 2)) s with ⟨hs, hp⟩ | ⟨hs, hp⟩
  · rw [answer_of_halt p (.call nnn) (if_pos hs), callWith, hp]; rfl
  · rw [answer_of_completes p (.call nnn) (if_neg (Nat.not_le.2 hs)), callWith, hp]; rfl

theorem waitKey_answer (p : Params) (x : Reg) (s : State) : waitKey p x s = .next (answer p (.ldVxK x) s) := by
  unfold waitKey answer haltStatus completed
  cases pressedKeys s <;> rfl

theorem execSkp_answer (p : Params) (x : Reg) (s : State) : execSkp x s = .next (answer p (.skp x) s) := by
  rcases keyIndex_cases s x with ⟨k, hk, he⟩ | ⟨hk, he⟩
  · rw [answer_of_completes p (.skp x) (if_neg (by omega))]
    simp only [execSkp, he, State.skipIf_eq, completed, hk]; rfl
  · rw [answer_of_halt p (.skp x) (if_pos hk), execSkp, he]; rfl

theorem execSknp_answer (p : Params) (x : Reg) (s : State) : execSknp x s = .next (answer p (.sknp x) s) := by
  rcases keyIndex_cases s x with ⟨k, hk, he⟩ | ⟨hk, he⟩
  · rw [answer_of_completes p (.sknp x) (if_neg (by omega))]
    simp only [execSknp, he, State.skipIf_eq, completed, hk]; rfl
  · rw [answer_of_halt p (.sknp x) (if_pos hk), execSknp, he]; rfl

theorem indexHalt_of_inRange {s : State} {n : Nat} (h : inRange s.i.toNat n = true) : indexHalt s n = none := by
  simp [indexHalt, h]

theorem indexHalt_of_not_inRange {s : State} {n : Nat} (h : inRange s.i.toNat n = false) :
    indexHalt s n = some ⟨.fault, .memoryOutOfRange, BitVec.ofNat 16 (lowestOutOfRange s.i.toNat)⟩ := by
  simp [indexHalt, h]

theorem execDrw_answer (p : Params) (x y : Reg) (n : Nibble) (s : State) :
    execDrw x y n s = .next (answer p (.drw x y n) s) := by
  rcases readBytes_cases s (indexBase s) n.toNat with ⟨h, hr⟩ | ⟨h, hr⟩
  · rw [answer_of_completes p (.drw x y n) (indexHalt_of_inRange h), execDrw, hr]; rfl
  · rw [answer_of_halt p (.drw x y n) (indexHalt_of_not_inRange h), execDrw, hr]; rfl

theorem execLdBVx_answer (p : Params) (x : Reg) (s : State) : execLdBVx x s = .next (answer p (.ldBVx x) s) := by
  rcases writeBytes_cases s (indexBase s) (bcdDigits (s.readV x)) with ⟨h, hr⟩ | ⟨h, hr⟩
  · rw [answer_of_completes p (.ldBVx x) (indexHalt_of_inRange h), execLdBVx, hr]; rfl
  · rw [answer_of_halt p (.ldBVx x) (indexHalt_of_not_inRange h), execLdBVx, hr]; rfl

theorem execStRegs_answer (p : Params) (x : Reg) (s : State) : execStRegs x s = .next (answer p (.stRegs x) s) := by
  rcases writeBytes_cases s (indexBase s) (s.readBlock x) with ⟨h, hr⟩ | ⟨h, hr⟩ <;> rw [State.readBlock_length] at h
  · rw [answer_of_completes p (.stRegs x) (indexHalt_of_inRange h), execStRegs, hr]; rfl
  · rw [answer_of_halt p (.stRegs x) (indexHalt_of_not_inRange h), execStRegs, hr]; rfl

theorem execLdRegs_answer (p : Params) (x : Reg) (s : State) : execLdRegs x s = .next (answer p (.ldRegs x) s) := by
  rcases readBytes_cases s (indexBase s) (blockSize x) with ⟨h, hr⟩ | ⟨h, hr⟩
  · rw [answer_of_completes p (.ldRegs x) (indexHalt_of_inRange h), execLdRegs, hr]; rfl
  · rw [answer_of_halt p (.ldRegs x) (indexHalt_of_not_inRange h), execLdRegs, hr]; rfl

/-- A draw changes the random input alone (10_state R34). -/
theorem State.takeRnd_eq (s : State) :
    s.takeRnd = { s with rndIn := s.rndIn.tail,
                         rndCount := if s.rndIn = [] then s.rndCount + 1 else s.rndCount } := by
  rw [← State.takeRnd_rndCount, ← State.takeRnd_rndIn]
  unfold State.takeRnd
  split <;> rfl

theorem execRnd_answer (p : Params) (x : Reg) (nn : Byte) (s : State) :
    execRnd x nn s = .next (answer p (.rnd x nn) s) := by
  rw [execRnd, State.takeRnd_eq]; rfl

/-- What every instruction answers, under any parameters (40_dispatch R125, R129, R131). -/
theorem execWith_next (p : Params) (i : Instr) (s : State) : execWith p i s = .next (answer p i s) := by
  cases i with
  | ret => exact execRet_answer p s
  | call nnn => exact callWith_answer p nnn s
  | skp x => exact execSkp_answer p x s
  | sknp x => exact execSknp_answer p x s
  | ldVxK x => exact waitKey_answer p x s
  | seImm | sneImm | seReg | sneReg => exact congrArg complete (State.skipIf_eq _ s)
  | rnd x nn => exact execRnd_answer p x nn s
  | drw x y n => exact execDrw_answer p x y n s
  | ldBVx x => exact execLdBVx_answer p x s
  | stRegs x => exact execStRegs_answer p x s
  | ldRegs x => exact execLdRegs_answer p x s
  | _ => rfl

/-- What every instruction answers on this hardware. -/
theorem exec_next (i : Instr) (s : State) : exec i s = .next (answer hardware i s) := by
  rw [← execWith_hardware, execWith_next]

theorem execWith_eq_next {p : Params} {i : Instr} {s t : State} : execWith p i s = .next t ↔ answer p i s = t := by
  simp [execWith_next]

theorem exec_eq_next {i : Instr} {s t : State} : exec i s = .next t ↔ answer hardware i s = t := by
  simp [exec_next]

end Sys2Proof.Machine

/-! ### The invariant (10_state R37): one lemma per element -/

namespace Sys2Proof.Machine

/-- A status an instruction stops with is legal when `I` is an address and the stack keeps its bound (60_exceptions R332). -/
theorem haltStatus_legal {p : Params} {i : Instr} {s : State} {st : Status} (hs : s.InvWith p)
    (h : haltStatus p i s = some st) : st.legalWith p = true := by
  obtain ⟨-, hi, hstack, -, -⟩ := hs
  have indexed : ∀ n, indexHalt s n = some st → st.legalWith p = true := by
    intro n hn
    rw [indexHalt, lowestOutOfRange_of_lt hi] at hn
    obtain ⟨-, ⟨⟩⟩ := Option.ite_none_left_eq_some.1 hn
    rfl
  have key : ∀ x : Reg, haltStatus p (.skp x) s = some st → st.legalWith p = true := by
    intro x hx
    obtain ⟨h16, ⟨⟩⟩ := Option.ite_none_right_eq_some.1 hx
    simpa [Status.legalWith] using ⟨h16, (s.readV x).isLt⟩
  cases i with
  | ret => obtain ⟨-, ⟨⟩⟩ := Option.ite_none_right_eq_some.1 h; rfl
  | call nnn =>
    obtain ⟨hfull, ⟨⟩⟩ := Option.ite_none_right_eq_some.1 h
    simp [Status.legalWith, le_antisymm hstack hfull]
  | ldVxK x => obtain ⟨-, ⟨⟩⟩ := Option.ite_none_right_eq_some.1 h; rfl
  | skp x => exact key x h
  | sknp x => exact key x h
  | drw x y n => exact indexed _ h
  | ldBVx x => exact indexed _ h
  | stRegs x => exact indexed _ h
  | ldRegs x => exact indexed _ h
  | _ => cases h

/-- Every pc update is masked (40_dispatch R128). -/
theorem completed_pc (p : Params) (i : Instr) (s : State) : ∃ a, (completed p i s).pc = mask12 a := by
  cases i <;> exact ⟨_, rfl⟩

/-- `I` is written by the five instructions of 10_state R25 alone, and masked. -/
theorem completed_i (p : Params) (i : Instr) (s : State) :
    (∃ a, (completed p i s).i = mask12 a) ∧ writesI i = true ∨ (completed p i s).i = s.i ∧ writesI i = false := by
  cases i with
  | ldI nnn => exact .inl ⟨⟨_, rfl⟩, rfl⟩
  | addIVx x => exact .inl ⟨⟨_, rfl⟩, rfl⟩
  | ldFVx x => exact .inl ⟨⟨_, rfl⟩, rfl⟩
  | stRegs x => exact .inl ⟨⟨_, rfl⟩, rfl⟩
  | ldRegs x => exact .inl ⟨⟨_, rfl⟩, rfl⟩
  | _ => exact .inr ⟨by simp [completed], rfl⟩

/-- The stack is written by a return, which shortens it, and by a call, which adds one entry (10_state R26, R27). -/
theorem completed_stack (p : Params) (i : Instr) (s : State) :
    (completed p i s).stack = s.stack ∨ (i = .ret ∧ (completed p i s).stack = s.stack.dropLast) ∨
    (∃ nnn a, i = .call nnn ∧ (completed p i s).stack = s.stack ++ [a]) := by
  cases i with
  | ret => exact .inr (.inl ⟨rfl, rfl⟩)
  | call nnn => exact .inr (.inr ⟨nnn, _, rfl, rfl⟩)
  | _ => exact .inl (by simp [completed])

/-- Memory is written by `Fx33` and `Fx55` alone, as a list of bytes from `I` (20_memory R60). -/
theorem completed_mem (p : Params) (i : Instr) (s : State) :
    (completed p i s).mem = s.mem ∨
    ∃ x bs, (i = .ldBVx x ∨ i = .stRegs x) ∧ (completed p i s).mem = s.mem.writeList s.i.toNat bs ∧
      haltStatus p i s = indexHalt s bs.length := by
  cases i with
  | ldBVx x => exact .inr ⟨x, _, .inl rfl, rfl, rfl⟩
  | stRegs x => exact .inr ⟨x, _, .inr rfl, rfl, by rw [State.readBlock_length]; rfl⟩
  | _ => exact .inl (by simp [completed])

/-- A call that completes had room on the stack. -/
theorem stack_room_of_completes {p : Params} {nnn : Addr} {s : State} (h : haltStatus p (.call nnn) s = none) :
    s.stack.length < p.stackDepth := by
  simpa [haltStatus] using h

/-- An indexed access that completes is in range. -/
theorem inRange_of_completes {s : State} {n : Nat} (h : indexHalt s n = none) : inRange s.i.toNat n = true := by
  simpa [indexHalt] using h

theorem completed_stack_bound {p : Params} {i : Instr} {s : State} (hs : s.stack.length ≤ p.stackDepth)
    (h : haltStatus p i s = none) : (completed p i s).stack.length ≤ p.stackDepth := by
  rcases completed_stack p i s with he | ⟨-, he⟩ | ⟨nnn, a, rfl, he⟩ <;> rw [he]
  · exact hs
  · rw [List.length_dropLast]; omega
  · have := stack_room_of_completes h
    rw [List.length_append]; exact this

theorem completed_mem_wf {p : Params} {i : Instr} {s : State} (hs : s.mem.wf = true) (h : haltStatus p i s = none) :
    (completed p i s).mem.wf = true := by
  rcases completed_mem p i s with he | ⟨x, bs, -, he, hh⟩ <;> rw [he]
  · exact hs
  · rcases (inRange_iff _ _).1 (inRange_of_completes (hh.symm.trans h)) with hn | hn
    · rw [List.eq_nil_of_length_eq_zero hn]; exact hs
    · exact Memory.wf_writeList bs hs hn

theorem completed_i_lt {p : Params} {i : Instr} {s : State} (hs : s.i.toNat < 4096) :
    (completed p i s).i.toNat < 4096 := by
  rcases completed_i p i s with ⟨⟨a, he⟩, -⟩ | ⟨he, -⟩ <;> rw [he]
  · exact mask12_lt a
  · exact hs

/-- Every instruction keeps the invariant, under any parameters. -/
theorem answer_inv {p : Params} {s : State} (i : Instr) (hs : s.InvWith p) : (answer p i s).InvWith p := by
  have ⟨hpc, hi, hstack, hmem, _⟩ := hs
  rcases answer_cases p i s with ⟨st, hh, he⟩ | ⟨hh, he⟩ <;> rw [he]
  · exact ⟨hpc, hi, hstack, hmem, haltStatus_legal hs hh⟩
  · obtain ⟨a, ha⟩ := completed_pc p i s
    exact ⟨ha ▸ mask12_lt a, completed_i_lt hi, completed_stack_bound hstack hh, completed_mem_wf hmem hh, rfl⟩

/-- A fetch from an address fails at 0xFFF alone, for the byte at 0x1000 (40_dispatch R122). -/
theorem fetch_error {s : State} {c : Condition} (hpc : s.pc.toNat < 4096) (h : fetch s = .error c) :
    c = ⟨.memoryOutOfRange, 0x1000⟩ := by
  by_cases hlt : s.pc.toNat < 0xFFF
  · rw [fetch_of_lt hlt] at h; cases h
  · rw [fetch_top (by omega)] at h; injection h with h; exact h.symm

/-- A step keeps the invariant, under any parameters (10_state R37). -/
theorem stepWith_inv {p : Params} {s t : State} (hs : s.InvWith p) (h : stepWith p s = .next t) : t.InvWith p := by
  have ⟨hpc, hi, hstack, hmem, _⟩ := hs
  rcases cycle_cases h with ⟨-, rfl⟩ | ⟨-, ⟨c, hc, rfl⟩ | ⟨op, -, ⟨i, -, hx⟩ | ⟨e, -, rfl⟩⟩⟩
  · exact hs
  · exact ⟨hpc, hi, hstack, hmem, by rw [fetch_error hpc hc]; rfl⟩
  · rw [execWith_eq_next] at hx
    exact hx ▸ answer_inv i hs
  · exact ⟨hpc, hi, hstack, hmem, rfl⟩

/-- Settles O15: the step lemma at this hardware's parameters. -/
theorem stepKeepsInvariant : Obligations.StepKeepsInvariant := by
  intro s t hs h
  rw [← stepWith_hardware] at h
  exact stepWith_inv hs h

/-! ### The ports and the reachable states keep the invariant -/

theorem loadAddr_lt : (0x200 : Word).toNat < 4096 := by decide

theorem resetElements_inv {p : Params} {u : State} (hu : u.InvWith p) : (resetElements p u).InvWith p := by
  have ⟨_, hi, hstack, hmem, _⟩ := hu
  unfold resetElements
  split
  · exact ⟨loadAddr_lt, Nat.zero_lt_succ _, Nat.zero_le _, rfl, rfl⟩
  · exact ⟨loadAddr_lt, hi, hstack, hmem, rfl⟩

/-- Writing bytes that fit below 0x1000 keeps the invariant. -/
theorem State.inv_writeList {p : Params} {s : State} {base : Nat} {bs : List Byte} (hs : s.InvWith p)
    (hb : base + bs.length ≤ 4096) : State.InvWith p { s with mem := s.mem.writeList base bs } := by
  obtain ⟨hpc, hi, hstack, hmem, hstatus⟩ := hs
  exact ⟨hpc, hi, hstack, Memory.wf_writeList bs hmem hb, hstatus⟩

theorem resetMachine_inv {p : Params} {u : State} (hp : p.wellFormed = true) (hu : u.InvWith p) :
    (resetMachine p u).InvWith p :=
  State.inv_writeList (resetElements_inv hu) (by rw [font_length_of_wellFormed hp]; decide)

theorem boot_inv {p : Params} {rom : List Byte} {u s : State} (hp : p.wellFormed = true) (hu : u.InvWith p)
    (h : boot p rom u = .next s) : s.InvWith p := by
  unfold boot at h
  split at h
  · rename_i hrom
    injection h with h
    have hlen : rom.length ≤ Config.maxRom := by simpa [romWellFormed] using hrom
    exact h ▸ State.inv_writeList (resetMachine_inv hp hu)
      (by simp only [Config.maxRom, Config.memSize, Config.loadAddr] at *; omega)
  · cases h

/-- Every transaction keeps the invariant, under any well-formed parameters (10_state R40). -/
theorem applyEventWith_inv {p : Params} {loading : Bool} {e : Event} {s t : State} (hp : p.wellFormed = true)
    (hs : s.InvWith p) (h : applyEventWith p loading e s = .next t) : t.InvWith p := by
  have ⟨hpc, hi, hstack, hmem, hstatus⟩ := hs
  cases e with
  | step => exact stepWith_inv hs h
  | reset => injection h with h; exact h ▸ resetMachine_inv hp hs
  | load a b =>
    simp only [applyEventWith] at h
    split at h
    · split at h
      · cases h
      · injection h with h
        exact h ▸ ⟨hpc, hi, hstack, Memory.wf_write b hmem a.isLt, hstatus⟩
    · cases h
  | keyIn | rnd | tmrWrite | tick | snap =>
    injection h with h
    exact h ▸ ⟨hpc, hi, hstack, hmem, hstatus⟩

theorem hardware_wellFormed : hardware.wellFormed = true := by decide

/-- Settles O16: `applyEventWith_inv`, at this hardware's parameters and at any well-formed ones. -/
theorem everyTransactionKeepsInvariant : Obligations.EveryTransactionKeepsInvariant :=
  ⟨fun _ _ _ _ hs h => applyEventWith_inv hardware_wellFormed hs h,
    fun _ _ _ _ _ hp hs h => applyEventWith_inv hp hs h⟩

/-- The invariant holds after a boot and every transaction keeps it. -/
theorem ReachableWith.inv {p : Params} {s : State} (hp : p.wellFormed = true) (h : ReachableWith p s) : s.InvWith p := by
  induction h with
  | boot rom u s hu hb => exact boot_inv hp hu hb
  | event e s t _ he ih => exact applyEventWith_inv hp ih he

/-- Settles O17: by induction on how the state is reached. -/
theorem reachableStatesSatisfyInvariant : Obligations.ReachableStatesSatisfyInvariant :=
  ⟨fun _ h => h.inv hardware_wellFormed, fun _ _ hp h => h.inv hp⟩

/-- Settles O14: the base case, element by element. -/
theorem resetSatisfiesInvariant : Obligations.ResetSatisfiesInvariant :=
  ⟨loadAddr_lt, Nat.zero_lt_succ _, Nat.zero_le _, rfl, rfl⟩

end Sys2Proof.Machine

/-! ### The canonical form of memory (log 7) -/

namespace Sys2Proof.Machine

/-- The first cell of a canonical memory reads otherwise than a canonical memory that lists nothing at or below it. -/
theorem Memory.read_head_ne {low b : Nat} {w : Byte} {m n : Memory} (hw : w ≠ Memory.unlisted b)
    (hn : Memory.wfFrom low n = true) (hb : b < low) : Memory.read ((b, w) :: m) b ≠ n.read b := by
  rw [Memory.read, if_pos rfl, Memory.read_below hn hb]
  exact hw

/-- Canonical memories that read alike are equal, whatever the bounds they are canonical from. -/
theorem Memory.eq_of_reads {low low' : Nat} {m n : Memory} (hm : Memory.wfFrom low m = true)
    (hn : Memory.wfFrom low' n = true) (h : ∀ a : Nat, a < 4096 → m.read a = n.read a) : m = n := by
  induction m generalizing low low' n with
  | nil =>
    match n, hn with
    | [], _ => rfl
    | (b, u) :: n, hn =>
      obtain ⟨-, hb, hu, -⟩ := (Memory.wfFrom_cons ..).1 hn
      exact absurd (h b hb).symm (Memory.read_head_ne (low := b + 1) hu rfl (Nat.lt_succ_self b))
  | cons c m ih =>
    obtain ⟨a, w⟩ := c
    obtain ⟨-, ha, hw, hm'⟩ := (Memory.wfFrom_cons ..).1 hm
    match n, hn with
    | [], _ => exact absurd (h a ha) (Memory.read_head_ne (low := a + 1) hw rfl (Nat.lt_succ_self a))
    | (b, u) :: n, hn =>
      obtain ⟨-, hb, hu, hn'⟩ := (Memory.wfFrom_cons ..).1 hn
      rcases Nat.lt_trichotomy a b with hab | rfl | hab
      · have hnb : Memory.wfFrom b ((b, u) :: n) = true := (Memory.wfFrom_cons ..).2 ⟨Nat.le_refl b, hb, hu, hn'⟩
        exact absurd (h a ha) (Memory.read_head_ne hw hnb hab)
      · have hhead : w = u := by simpa [Memory.read] using h a ha
        have htail : ∀ c : Nat, c < 4096 → Memory.read m c = Memory.read n c := by
          intro c hc
          by_cases hca : c = a
          · rw [hca, Memory.read_below hm' (Nat.lt_succ_self a), Memory.read_below hn' (Nat.lt_succ_self a)]
          · simpa [Memory.read, hca] using h c hc
        rw [hhead, ih hm' hn' htail]
      · have hma : Memory.wfFrom a ((a, w) :: m) = true := (Memory.wfFrom_cons ..).2 ⟨Nat.le_refl a, ha, hw, hm'⟩
        exact absurd (h b hb).symm (Memory.read_head_ne hu hma hab)

/-- Settles O18: by induction on one list, the heads compared by address. -/
theorem equalReadsGiveEqualMemories : Obligations.EqualReadsGiveEqualMemories :=
  fun _ _ hm hn h => Memory.eq_of_reads hm hn h

end Sys2Proof.Machine

/-! ### Which instruction writes which element -/

namespace Sys2Proof.Machine

/-- An element other than the status that completing leaves unchanged is unchanged, for stopping changes the status alone. -/
theorem answer_frame {α : Type} {p : Params} {i : Instr} {s : State} (f : State → α)
    (hf : ∀ (u : State) (st : Status), f { u with status := st } = f u) (h : f (completed p i s) = f s) :
    f (answer p i s) = f s := by
  rcases answer_cases p i s with ⟨st, -, he⟩ | ⟨-, he⟩ <;> rw [he, hf]
  exact h

theorem completed_disp_dirty (p : Params) (i : Instr) (s : State) :
    (i = .cls ∨ ∃ x y n, i = .drw x y n) ∨ ((completed p i s).disp = s.disp ∧ (completed p i s).dirty = s.dirty) := by
  cases i with
  | cls => exact .inl (.inl rfl)
  | drw x y n => exact .inl (.inr ⟨x, y, n, rfl⟩)
  | _ => exact .inr (by simp [completed])

theorem completed_dt (p : Params) (i : Instr) (s : State) : (∃ x, i = .ldDtVx x) ∨ (completed p i s).dt = s.dt := by
  cases i with
  | ldDtVx x => exact .inl ⟨x, rfl⟩
  | _ => exact .inr (by simp [completed])

theorem completed_st (p : Params) (i : Instr) (s : State) : (∃ x, i = .ldStVx x) ∨ (completed p i s).st = s.st := by
  cases i with
  | ldStVx x => exact .inl ⟨x, rfl⟩
  | _ => exact .inr (by simp [completed])

theorem completed_rnd (p : Params) (i : Instr) (s : State) :
    (∃ x nn, i = .rnd x nn) ∨ ((completed p i s).rndIn = s.rndIn ∧ (completed p i s).rndCount = s.rndCount) := by
  cases i with
  | rnd x nn => exact .inl ⟨x, nn, rfl⟩
  | _ => exact .inr (by simp [completed])

/-- No instruction writes `curOp` (10_state R33). -/
theorem answer_curOp (p : Params) (i : Instr) (s : State) : (answer p i s).curOp = s.curOp :=
  answer_frame State.curOp (fun _ _ => rfl) (by cases i <;> simp [completed])

/-- No instruction writes the keys (10_state R29). -/
theorem answer_key (p : Params) (i : Instr) (s : State) : (answer p i s).key = s.key :=
  answer_frame State.key (fun _ _ => rfl) (by cases i <;> simp [completed])

/-- Settles O23: an element that changed was not left unchanged by completing, so the instruction is one named. -/
theorem onlyTheNamedInstructionsWrite : Obligations.OnlyTheNamedInstructionsWrite := by
  intro i s t h
  obtain rfl := exec_eq_next.1 h
  refine ⟨fun hne => ?_, fun hne => ?_, fun hne => ?_, fun hne => ?_, fun hne => ?_, fun hne => ?_, answer_curOp ..⟩
  · rcases completed_mem hardware i s with he | ⟨x, -, hi, -⟩
    · exact absurd (answer_frame State.mem (fun _ _ => rfl) he) hne
    · exact ⟨x, hi⟩
  · rcases completed_stack hardware i s with he | ⟨hi, -⟩ | ⟨nnn, -, hi, -⟩
    · exact absurd (answer_frame State.stack (fun _ _ => rfl) he) hne
    · exact .inl hi
    · exact .inr ⟨nnn, hi⟩
  · rcases completed_disp_dirty hardware i s with hi | ⟨hdisp, hdirty⟩
    · exact hi
    · exact absurd hne (by
        simp [answer_frame State.disp (fun _ _ => rfl) hdisp, answer_frame State.dirty (fun _ _ => rfl) hdirty])
  · exact (completed_dt hardware i s).resolve_right fun he => hne (answer_frame State.dt (fun _ _ => rfl) he)
  · exact (completed_st hardware i s).resolve_right fun he => hne (answer_frame State.st (fun _ _ => rfl) he)
  · rcases completed_rnd hardware i s with hi | ⟨hin, hcount⟩
    · exact hi
    · exact absurd hne (by
        simp [answer_frame State.rndIn (fun _ _ => rfl) hin, answer_frame State.rndCount (fun _ _ => rfl) hcount])

/-! ### `VF` (10_state R22) -/

theorem State.readV_writeV_of_ne {s : State} {x r : Reg} (b : Byte) (h : (x == r) = false) :
    (s.writeV x b).readV r = s.readV r := by
  rw [State.readV_writeV, if_neg (by simpa using h)]

/-- `Fx65` leaves the registers above `Vx`. -/
theorem State.readV_writeBlock_above {s : State} {bs : List Byte} {r : Reg} (h : bs.length ≤ r.val) :
    (s.writeBlock bs).readV r = s.readV r := by
  rw [State.readV_writeBlock, if_neg (Nat.not_lt.2 h)]

/-- An instruction that completes and names `VF` neither as flag nor as destination leaves it. -/
theorem completed_readVF (p : Params) {i : Instr} (s : State) (h : mayWriteVF i = false) :
    (completed p i s).readV VF = s.readV VF := by
  cases i with
  | ldImm x nn => exact State.readV_writeV_of_ne _ h
  | addImm x nn => exact State.readV_writeV_of_ne _ h
  | ldReg x y => exact State.readV_writeV_of_ne _ h
  | orReg x y => exact State.readV_writeV_of_ne _ h
  | andReg x y => exact State.readV_writeV_of_ne _ h
  | xorReg x y => exact State.readV_writeV_of_ne _ h
  | ldVxDt x => exact State.readV_writeV_of_ne _ h
  | ldVxK x => exact State.readV_writeV_of_ne _ h
  | rnd x nn => exact State.readV_writeV_of_ne _ h
  | ldRegs x =>
    have hx : x ≠ VF := by simpa [mayWriteVF] using h
    have : x.val + 1 ≤ (15 : Nat) := by
      have := x.isLt
      have : x.val ≠ 15 := fun e => hx (Fin.ext e)
      omega
    exact State.readV_writeBlock_above (by simpa [blockSize] using this)
  | addReg | sub | shr | subn | shl | drw => cases h
  | _ => exact State.readV_congr (by simp [completed]) VF

/-- Settles O22: stopping leaves every register, completing leaves `VF` by `completed_readVF`. -/
theorem vfWrittenOnlyAsFlagOrDestination : Obligations.VfWrittenOnlyAsFlagOrDestination := by
  intro i s t h hvf
  obtain rfl := exec_eq_next.1 h
  exact answer_frame (State.readV · VF) (fun _ _ => rfl) (completed_readVF hardware s hvf)

end Sys2Proof.Machine

/-! ### Elements an instruction does not read -/

namespace Sys2Proof.Machine

/-- Whether an instruction stops does not depend on `ST`, `dirty` or `curOp`. -/
theorem haltStatus_unread (p : Params) (i : Instr) (s : State) (b : Byte) (d : Bool) (c : Word) :
    haltStatus p i { s with st := b, dirty := d, curOp := c } = haltStatus p i s := by
  cases i <;> rfl

/-- What an instruction computes does not depend on `ST`, `dirty` or `curOp`, these three apart. -/
theorem completed_unread (i : Instr) (s : State) (b : Byte) (d : Bool) (c : Word) :
    completed hardware i s = { completed hardware i { s with st := b, dirty := d, curOp := c } with
      st := (completed hardware i s).st, dirty := (completed hardware i s).dirty,
      curOp := (completed hardware i s).curOp } := by
  cases i <;> rfl

/-- Settles O25: both whether the instruction stops and what it computes are the same, the three elements apart. -/
theorem unreadElementsDoNotMatter : Obligations.UnreadElementsDoNotMatter := by
  intro i s t b d c h
  obtain rfl := exec_eq_next.1 h
  refine ⟨_, exec_next .., ?_⟩
  have hh := haltStatus_unread hardware i s b d c
  rcases answer_cases hardware i s with ⟨st, h0, he⟩ | ⟨h0, he⟩
  · rw [he, answer_of_halt _ _ (hh.trans h0)]
  · rw [he, answer_of_completes _ _ (hh.trans h0), completed_unread i s b d c]

theorem haltStatus_key (p : Params) {i : Instr} (s : State) (keys : BitVec 16) (h : readsKeys i = false) :
    haltStatus p i { s with key := keys } = haltStatus p i s := by
  cases i with
  | skp | sknp | ldVxK => cases h
  | _ => rfl

theorem completed_with_key {i : Instr} (s : State) (keys : BitVec 16) (h : readsKeys i = false) :
    completed hardware i { s with key := keys } = { completed hardware i s with key := keys } := by
  cases i with
  | skp | sknp | ldVxK => cases h
  | _ => rfl

/-- An instruction that is not key-dependent ends the same, the keys apart, whatever keys are pressed (10_state R29). -/
theorem answer_with_key {i : Instr} (s : State) (keys : BitVec 16) (h : readsKeys i = false) :
    answer hardware i { s with key := keys } = { answer hardware i s with key := keys } := by
  have hh := haltStatus_key hardware s keys h
  rcases answer_cases hardware i s with ⟨st, h0, he⟩ | ⟨h0, he⟩
  · rw [he, answer_of_halt _ _ (hh.trans h0)]
  · rw [he, answer_of_completes _ _ (hh.trans h0), completed_with_key s keys h]

/-- No step writes the keys (10_state R29). -/
theorem stepWith_key {p : Params} {s t : State} (h : stepWith p s = .next t) : t.key = s.key := by
  rcases cycle_cases h with ⟨-, rfl⟩ | ⟨-, ⟨c, -, rfl⟩ | ⟨op, -, ⟨i, -, hx⟩ | ⟨e, -, rfl⟩⟩⟩
  · rfl
  · rfl
  · rw [execWith_eq_next] at hx
    exact hx ▸ answer_key p i (s.writeCurOp op)
  · rfl

/-- Of the host's transactions only `key_in` and a reset write the keys. -/
theorem applyEventWith_key {p : Params} {loading : Bool} {e : Event} {s t : State} (hkeys : ∀ keys, e ≠ .keyIn keys)
    (hreset : e ≠ .reset) (h : applyEventWith p loading e s = .next t) : t.key = s.key := by
  cases e with
  | reset => exact absurd rfl hreset
  | keyIn keys => exact absurd rfl (hkeys keys)
  | step => exact stepWith_key h
  | load a b =>
    simp only [applyEventWith] at h
    split at h
    · split at h
      · cases h
      · injection h with h; exact h ▸ rfl
    · cases h
  | rnd | tmrWrite | tick | snap => injection h with h; exact h ▸ rfl

/-- Settles O26: `key_in` by its definition, then the frame of instructions, steps and transactions, and `answer_with_key`. -/
theorem keysAreTheHostsAndReadByThree : Obligations.KeysAreTheHostsAndReadByThree := by
  refine ⟨fun _ _ _ => rfl, fun i s t h => ?_, fun s t h => ?_, fun loading e s t hkeys hreset h => ?_,
    fun i s t keys hi h => ?_⟩
  · exact exec_eq_next.1 h ▸ answer_key hardware i s
  · exact stepWith_key (p := hardware) (by rw [stepWith_hardware, h])
  · exact applyEventWith_key hkeys hreset h
  · obtain rfl := exec_eq_next.1 h
    rw [exec_next, answer_with_key s keys hi]

/-! ### The index register (10_state R25) -/

theorem haltStatus_i (p : Params) {i : Instr} (s : State) (a : Word) (h : readsI i = false) :
    haltStatus p i { s with i := a } = haltStatus p i s := by
  cases i with
  | drw | addIVx | ldBVx | stRegs | ldRegs => cases h
  | _ => rfl

/-- Of the instructions that can stop, those that do not read `I` do not write it. -/
theorem writesI_of_halt {p : Params} {i : Instr} {s : State} {st : Status} (hh : haltStatus p i s = some st)
    (h : readsI i = false) : writesI i = false := by
  cases i with
  | ldI | ldFVx => cases hh
  | addIVx | stRegs | ldRegs => cases h
  | _ => rfl

theorem completed_with_i {i : Instr} (s : State) (a : Word) (h : readsI i = false) :
    completed hardware i { s with i := a } =
      { completed hardware i s with i := if writesI i then (completed hardware i s).i else a } := by
  cases i with
  | drw | addIVx | ldBVx | stRegs | ldRegs => cases h
  | _ => rfl

/-- An instruction that does not read `I` ends the same, `I` apart where it does not write it. -/
theorem answer_with_i {i : Instr} (s : State) (a : Word) (h : readsI i = false) :
    answer hardware i { s with i := a } =
      { answer hardware i s with i := if writesI i then (answer hardware i s).i else a } := by
  have hh := haltStatus_i hardware s a h
  rcases answer_cases hardware i s with ⟨st, h0, he⟩ | ⟨h0, he⟩
  · rw [he, answer_of_halt _ _ (hh.trans h0), writesI_of_halt h0 h]; rfl
  · rw [he, answer_of_completes _ _ (hh.trans h0), completed_with_i s a h]

/-- `I` after an instruction: unchanged, or written by one of the five as a 12-bit value. -/
theorem answer_i (p : Params) (i : Instr) (s : State) :
    (answer p i s).i = s.i ∨ (writesI i = true ∧ (answer p i s).i.toNat < 4096) := by
  rcases answer_cases p i s with ⟨st, -, he⟩ | ⟨-, he⟩ <;> rw [he]
  · exact .inl rfl
  · rcases completed_i p i s with ⟨⟨a, ha⟩, hw⟩ | ⟨hi, -⟩
    · exact .inr ⟨hw, ha ▸ mask12_lt a⟩
    · exact .inl hi

/-- Settles O27: the write of `I` by `answer_i`, the reads by `answer_with_i`. -/
theorem indexRegisterUse : Obligations.IndexRegisterUse := by
  intro i s t h
  obtain rfl := exec_eq_next.1 h
  refine ⟨fun hs => ?_, fun hne => (answer_i hardware i s).resolve_left hne, fun a hi => ?_⟩
  · rcases answer_i hardware i s with he | ⟨-, hlt⟩
    · rwa [he]
    · exact hlt
  · rw [exec_next, answer_with_i s a hi]

end Sys2Proof.Machine

/-! ### The step and the reset state -/

namespace Sys2Proof.Machine

/-- Settles O7: the fetch below 0xFFF reads both bytes, and `cycle` executes what they decode to. -/
theorem stepRunsTheDecodedInstruction : Obligations.StepRunsTheDecodedInstruction :=
  fun _ _ hrun hpc hdec =>
    ⟨cycle_executes exec hrun (fetch_of_lt hpc) hdec, fun p => cycle_executes (execWith p) hrun (fetch_of_lt hpc) hdec⟩

/-- Settles O13: memory reads as the reset contents, every other element is the literal of `State.reset`. -/
theorem resetValues : Obligations.ResetValues :=
  ⟨rfl, Display.pix_clear, rfl, rfl, fun _ ha => Memory.unlisted_above ha, fun r => by simp [State.readV, State.reset],
    rfl, rfl, rfl, rfl, fun k => by simp [State.keyDown, State.reset], rfl, rfl⟩

/-! ### Return, call and the wait for a key -/

/-- Settles O37: the return stops exactly on the empty stack. -/
theorem returnPopsIntoPc : Obligations.ReturnPopsIntoPc := by
  refine ⟨fun s init a hs => ⟨_, exec_next .., ?_⟩, fun s hs => ⟨_, exec_next .., answer_of_halt _ .ret (if_pos hs)⟩⟩
  rw [answer_of_completes hardware .ret (if_neg (by simp [hs]))]
  have ha : a.toNat < 4096 := a.isLt
  refine ⟨?_, by simp [completed, hs], rfl⟩
  simp [completed, hs, Nat.mod_eq_of_lt (show a.toNat < 65536 by omega), Nat.mod_eq_of_lt ha]

/-- The address of the next instruction (40_dispatch R128). -/
theorem nextPc_number (s : State) : (mask12 (s.pc + 2)).toNat = (s.pc.toNat + 2) % 4096 := mask12_add s.pc 2

/-- A call with room pushes the address of the next instruction and jumps. -/
theorem call_pushes {p : Params} (nnn : Addr) {s : State} (h : s.stack.length < p.stackDepth) :
    ∃ t, execWith p (.call nnn) s = .next t ∧ t.pc.toNat = nnn.toNat ∧
      (∃ a : Addr, t.stack = s.stack ++ [a] ∧ a.toNat = (s.pc.toNat + 2) % 4096) ∧
      t = { s with pc := t.pc, stack := t.stack, status := ⟨.run, .none, 0⟩ } := by
  refine ⟨_, execWith_next .., ?_⟩
  rw [answer_of_completes p (.call nnn) (if_neg (Nat.not_le.2 h))]
  have hn : nnn.toNat < 4096 := nnn.isLt
  refine ⟨?_, ⟨_, rfl, ?_⟩, rfl⟩
  · simp [completed, Nat.mod_eq_of_lt hn]
  · rw [BitVec.toNat_setWidth, mask12_of_lt (mask12_lt _), nextPc_number, Nat.mod_mod]

/-- A call on the full stack stops. -/
theorem call_overflows {p : Params} (nnn : Addr) {s : State} (h : s.stack.length = p.stackDepth) :
    ∃ t, execWith p (.call nnn) s = .next t ∧ FaultsWith .stackOverflow (BitVec.ofNat 16 p.stackDepth) s t :=
  ⟨_, execWith_next .., h ▸ answer_of_halt p (.call nnn) (if_pos h.ge)⟩

/-- Settles O40: `call_pushes` and `call_overflows`, at this hardware's depth and at any. -/
theorem callPushesTheReturnAddress : Obligations.CallPushesTheReturnAddress := by
  refine ⟨fun nnn s h => ?_, fun nnn s h => ?_, fun p nnn s h => call_pushes nnn h,
    fun p nnn s h => call_overflows nnn h⟩
  · exact execWith_hardware ▸ call_pushes (p := hardware) nnn h
  · exact execWith_hardware ▸ call_overflows (p := hardware) nnn h

theorem keyByte_number (k : Reg) : (keyByte k).toNat = k.val := by
  simp [keyByte]; omega

/-- What every instruction that loads one register with no flag leaves (42_alu R182). -/
theorem loadResult_ends (x : Reg) (r : Byte) (s : State) :
    ∃ t, loadResult x r s = .next t ∧ t.readV x = r ∧ SameRegsBut [x] s t ∧ OnlyRegs s t ∧ CompletesSeq s t :=
  ⟨_, rfl, State.readV_writeV_self s x r,
    fun _ hq => (State.readV_writeV s x _ r).trans (if_neg fun e => hq (List.mem_singleton.2 e.symm)),
    rfl, nextPc_number s, rfl⟩

/-- With keys pressed, `Fx0A` loads the one that `KEY_WAIT_PICK` chooses. -/
theorem keyWait_loads (p : Params) (x k : Reg) (ks : List Reg) (s : State) (h : pressedKeys s = k :: ks) :
    ∃ t, execWith p (.ldVxK x) s = .next t ∧ (t.readV x).toNat = (p.keyWaitPick k ks).val ∧ SameRegsBut [x] s t ∧
      OnlyRegs s t ∧ CompletesSeq s t := by
  obtain ⟨t, ht, hx, hframe⟩ := loadResult_ends x (keyByte (p.keyWaitPick k ks)) s
  have hexec : execWith p (.ldVxK x) s = loadResult x (keyByte (p.keyWaitPick k ks)) s := by
    rw [execWith, waitKey, h]; rfl
  exact ⟨t, hexec.trans ht, by rw [hx, keyByte_number], hframe⟩

/-- With no key pressed, `Fx0A` waits. -/
theorem keyWait_waits (p : Params) (x : Reg) (s : State) (h : s.key = 0) :
    ∃ t, execWith p (.ldVxK x) s = .next t ∧ t = { s with status := ⟨.waitKey, .none, 0⟩ } := by
  have hnone : pressedKeys s = [] := (pressedKeys_eq_nil s).2 fun k => by simp [State.keyDown, h]
  exact ⟨_, execWith_next .., answer_of_halt p (.ldVxK x) (if_pos hnone)⟩

/-- The pressed keys begin with the lowest one. -/
theorem pressedKeys_of_lowest {s : State} {k : Reg} (hk : s.keyDown k = true)
    (hlow : ∀ j : Reg, j < k → s.keyDown j = false) : ∃ ks, pressedKeys s = k :: ks := by
  have hmem := (mem_pressedKeys s k).2 hk
  cases h : pressedKeys s with
  | nil => simp [h] at hmem
  | cons j js =>
    obtain ⟨hj, hle⟩ := pressedKeys_head h
    have hjk : j = k := le_antisymm (hle k hk) (not_lt.1 fun hlt => by simp [hlow j hlt] at hj)
    exact ⟨js, by rw [hjk]⟩

/-- Settles O55: the lowest pressed key heads `pressedKeys`, and a rising list of the pressed keys is that list. -/
theorem keyWaitTakesTheLowestPressed : Obligations.KeyWaitTakesTheLowestPressed := by
  refine ⟨fun x k s hk hlow => ?_, fun x s h => ?_, fun p x k ks s hsorted hmem => ?_,
    fun p x s h => keyWait_waits p x s h⟩
  · obtain ⟨ks, hks⟩ := pressedKeys_of_lowest hk hlow
    exact execWith_hardware ▸ keyWait_loads hardware x k ks s hks
  · exact execWith_hardware ▸ keyWait_waits hardware x s h
  · exact keyWait_loads p x k ks s (pressedKeys_eq hsorted hmem)

/-! ### Result and flag (42_alu R181) -/

/-- A register other than `VF` takes the result when it is a destination, whatever `FLAG_LAST`. -/
theorem State.readV_writeFlagged_of_ne (p : Params) (s : State) (dests : List Reg) (r f : Byte) {q : Reg} (hq : q ≠ VF) :
    (s.writeFlagged p dests r f).readV q = if q ∈ dests then r else s.readV q := by
  unfold State.writeFlagged
  split
  · rw [State.readV_writeV, if_neg hq.symm, State.readV_writeResults]
  · rw [State.readV_writeResults, State.readV_writeV, if_neg hq.symm]

/-- `VF` holds the flag unless the result is written after it. -/
theorem State.readVF_writeFlagged (p : Params) (s : State) (dests : List Reg) (r f : Byte) :
    (s.writeFlagged p dests r f).readV VF = if p.flagLast = true ∨ VF ∉ dests then f else r := by
  unfold State.writeFlagged
  by_cases hp : p.flagLast = true
  · rw [if_pos hp, if_pos (.inl hp), State.readV_writeV_self]
  · rw [if_neg hp, State.readV_writeResults, State.readV_writeV_self]
    by_cases hd : VF ∈ dests <;> simp [hp, hd]

/-- What every flagged instruction leaves. -/
theorem loadFlagged_endsFlagged (p : Params) (dests : List Reg) (r f : Byte) (s : State) :
    ∃ t, loadFlagged p dests r f s = .next t ∧ EndsFlagged p dests r f s t := by
  refine ⟨_, rfl, fun q hq => ?_, ?_, ?_, ?_, rfl⟩
  · exact State.readV_writeFlagged_of_ne p s dests r f hq
  · exact State.readVF_writeFlagged p s dests r f
  · unfold OnlyRegs
    apply State.eq_of_fields <;> simp
  · rw [State.seq_pc, State.writeFlagged_pc, nextPc_number]

theorem flagByte_decide (c : Prop) [Decidable c] : flagByte (decide c) = if c then 1 else 0 := by
  simp [flagByte]

/-- `Vx` shifted right by one and the bit shifted out, as numbers (42_alu R191). -/
theorem ushiftRight_one_eq (b : Byte) : b >>> 1 = BitVec.ofNat 8 (b.toNat / 2) := by
  apply BitVec.eq_of_toNat_eq
  simp [Nat.shiftRight_eq_div_pow]; omega

theorem lsbFlag_eq (b : Byte) : lsbFlag b = BitVec.ofNat 8 (b.toNat % 2) := by
  apply BitVec.eq_of_toNat_eq
  simp [lsbFlag]; omega

/-- `Vx` shifted left by one and the bit shifted out, as numbers (42_alu R193). -/
theorem shiftLeft_one_eq (b : Byte) : b <<< 1 = BitVec.ofNat 8 (b.toNat * 2) := by
  apply BitVec.eq_of_toNat_eq
  simp [Nat.shiftLeft_eq]

theorem msbFlag_eq (b : Byte) : msbFlag b = BitVec.ofNat 8 (b.toNat / 128) := by
  have := b.isLt
  apply BitVec.eq_of_toNat_eq
  simp [msbFlag, Nat.shiftRight_eq_div_pow]; omega

/-- `8xy6` under any parameters. -/
theorem shr_endsFlagged (p : Params) (x y : Reg) (s : State) :
    ∃ t, execWith p (.shr x y) s = .next t ∧ EndsFlagged p (shiftDests p x y)
      (BitVec.ofNat 8 ((s.readV x).toNat / 2)) (BitVec.ofNat 8 ((s.readV x).toNat % 2)) s t := by
  rw [← ushiftRight_one_eq, ← lsbFlag_eq]
  exact loadFlagged_endsFlagged ..

/-- `8xyE` under any parameters. -/
theorem shl_endsFlagged (p : Params) (x y : Reg) (s : State) :
    ∃ t, execWith p (.shl x y) s = .next t ∧ EndsFlagged p (shiftDests p x y)
      (BitVec.ofNat 8 ((s.readV x).toNat * 2)) (BitVec.ofNat 8 ((s.readV x).toNat / 128)) s t := by
  rw [← shiftLeft_one_eq, ← msbFlag_eq]
  exact loadFlagged_endsFlagged ..

/-- Settles O35: the five instructions are `loadFlagged` with their own result and flag. -/
theorem flagOrderMattersOnlyForVf : Obligations.FlagOrderMattersOnlyForVf := by
  refine ⟨loadFlagged_endsFlagged, fun p x y s => ⟨?_, ?_, ?_, shr_endsFlagged p x y s, shl_endsFlagged p x y s⟩⟩
  · rw [← flagByte_decide]
    exact loadFlagged_endsFlagged ..
  · rw [← flagByte_decide]
    exact loadFlagged_endsFlagged ..
  · rw [← flagByte_decide]
    exact loadFlagged_endsFlagged ..

/-- With the flag last: the result in every destination but `VF`, the flag in `VF`, every other register as before. -/
theorem endsFlagged_flag_last {p : Params} {dests : List Reg} {r f : Byte} {s t : State}
    (h : EndsFlagged p dests r f s t) (hp : p.flagLast = true) :
    (∀ q ∈ dests, q ≠ VF → t.readV q = r) ∧ t.readV VF = f ∧ SameRegsBut (dests ++ [VF]) s t := by
  obtain ⟨hregs, hflag, -, -⟩ := h
  refine ⟨fun q hq hne => ?_, ?_, fun q hq => ?_⟩
  · rw [hregs q hne, if_pos hq]
  · rw [hflag, if_pos (.inl hp)]
  · simp only [List.mem_append, List.mem_singleton, not_or] at hq
    rw [hregs q hq.2, if_neg hq.1]

/-- Settles O34: the shifts' common ending with the one destination `Vx`. -/
theorem compatibilityShiftsLeaveVy : Obligations.CompatibilityShiftsLeaveVy := by
  intro x y s
  have hx := (s.readV x).isLt
  constructor
  · obtain ⟨t, ht, h⟩ := shr_endsFlagged { hardware with shiftWritesVy := false } x y s
    obtain ⟨hres, hflag, hsame⟩ := endsFlagged_flag_last h rfl
    obtain ⟨-, -, honly, hseq⟩ := h
    refine ⟨t, ht, fun hne => ?_, ?_, hsame, honly, hseq⟩
    · rw [hres x (List.mem_singleton_self x) hne, BitVec.toNat_ofNat]; omega
    · rw [hflag, BitVec.toNat_ofNat]; omega
  · obtain ⟨t, ht, h⟩ := shl_endsFlagged { hardware with shiftWritesVy := false } x y s
    obtain ⟨hres, hflag, hsame⟩ := endsFlagged_flag_last h rfl
    obtain ⟨-, -, honly, hseq⟩ := h
    refine ⟨t, ht, fun hne => ?_, ?_, hsame, honly, hseq⟩
    · rw [hres x (List.mem_singleton_self x) hne, BitVec.toNat_ofNat]
    · rw [hflag, BitVec.toNat_ofNat]; omega

/-! ### The draw (42_alu R194, 10_state R34) -/

theorem rndByte_supplied {s : State} {b : Byte} {rest : List Byte} (h : s.rndIn = b :: rest) : rndByte s = b := by
  simp [rndByte, h]

theorem rndByte_free {s : State} (h : s.rndIn = []) : rndByte s = Config.freeRandom s.rndCount := by
  simp [rndByte, h]

/-- Settles O36: `Cxnn` loads the masked draw in the state that `takeRnd` leaves; the draw is by whether the host supplied
a byte. -/
theorem randomIsTheMaskedDraw : Obligations.RandomIsTheMaskedDraw := by
  intro x nn s
  obtain ⟨t, ht, hx, hsame, honly, hpc, hstatus⟩ := loadResult_ends x (rndByte s &&& nn) s.takeRnd
  have hin : t.rndIn = s.takeRnd.rndIn := (congrArg State.rndIn honly).trans rfl
  have hcount : t.rndCount = s.takeRnd.rndCount := (congrArg State.rndCount honly).trans rfl
  refine ⟨t, ht, fun b rest hb => ⟨?_, ?_, ?_⟩, fun hnil => ⟨?_, ?_, ?_⟩, fun k hk => ?_, fun r hr => ?_,
    ⟨?_, hstatus⟩, ?_⟩
  · rw [hx, rndByte_supplied hb]
  · simp [hin, State.takeRnd_rndIn, hb]
  · simp [hcount, State.takeRnd_rndCount, hb]
  · rw [hx, rndByte_free hnil]
  · simp [hin, State.takeRnd_rndIn, hnil]
  · simp [hcount, State.takeRnd_rndCount, hnil]
  · rw [hx, BitVec.getLsbD_and, hk, Bool.and_false]
  · rw [hsame r hr, State.readV_congr s.takeRnd_v]
  · rw [hpc, State.takeRnd_pc]
  · rw [hin, hcount]
    exact honly.trans (by rw [State.takeRnd_eq])

/-! ### The display output (10_state R31, R40) -/

/-- The fold of `dispOut`, over any rows. -/
def rowsOut (rows : List (BitVec 64)) : BitVec 2048 :=
  rows.foldr (fun row rest => (rest <<< 64) ||| row.setWidth 2048) 0

theorem dispOut_eq (d : Display) : dispOut d = rowsOut d.toList := rfl

theorem rowsOut_cons (row : BitVec 64) (rows : List (BitVec 64)) :
    rowsOut (row :: rows) = (rowsOut rows <<< 64) ||| row.setWidth 2048 := rfl

/-- Bit `r*64 + c` of rows laid one after the other is bit `c` of row `r`. -/
theorem getLsbD_rowsOut (rows : List (BitVec 64)) {r c : Nat} (hc : c < 64) (hr : r < 32) :
    (rowsOut rows).getLsbD (r * 64 + c) = (rows.getD r 0).getLsbD c := by
  induction rows generalizing r with
  | nil => simp [rowsOut]
  | cons row rows ih =>
    rw [rowsOut_cons, BitVec.getLsbD_or, BitVec.getLsbD_shiftLeft, BitVec.getLsbD_setWidth]
    cases r with
    | zero => simp [hc]; omega
    | succ r =>
      have hlt : (r + 1) * 64 + c < 2048 := by omega
      have hge : 64 ≤ (r + 1) * 64 + c := by omega
      rw [BitVec.getLsbD_of_ge row _ hge, show (r + 1) * 64 + c - 64 = r * 64 + c by omega, ih (by omega)]
      simp [hlt, Nat.not_lt.2 hge]

/-- Settles O56: `getLsbD_rowsOut` on the buffer's rows. -/
theorem displayOutputIsRowMajor : Obligations.DisplayOutputIsRowMajor := by
  intro d c r
  rw [dispOut_eq, getLsbD_rowsOut d.toList c.isLt r.isLt]
  simp [Display.pix]

end Sys2Proof.Machine

/-! ### Fetch at the top of memory (40_dispatch R122) -/

namespace Sys2Proof.Machine

/-- A fetch that fails raises before `curOp` is written. -/
theorem cycle_raises (execute : Instr → State → Result) {s : State} {c : Condition} (h : s.status.state ≠ .fault)
    (hf : fetch s = .error c) : cycle execute s = raise c s := by
  unfold cycle
  split
  · contradiction
  · rw [hf]

/-- Settles O9: `fetch` at 0xFFF fails for the byte at 0x1000. -/
theorem fetchAtTheTopFaults : Obligations.FetchAtTheTopFaults :=
  fun _ hrun hpc => cycle_raises exec hrun (fetch_top hpc)

end Sys2Proof.Machine

/-! ### An instruction's word decodes to it (30_encoding R92, R95) -/

namespace Sys2Proof

/-- The kind of an instruction's word is the instruction's. -/
theorem kindOf_encode (i : Instr) : kindOf (encode i) = i.kind := by
  cases i with
  | seReg | sneReg => simp [encode, kindOf, Instr.kind]
  | ldReg | orReg | andReg | xorReg | addReg | sub | shr | subn | shl =>
    simp [encode, kindOf, kindOfFamily8, Instr.kind]
  | skp | sknp => simp [encode, kindOf, kindOfFamilyE, Instr.kind]
  | ldVxDt | ldVxK | ldDtVx | ldStVx | addIVx | ldFVx | ldBVx | stRegs | ldRegs =>
    simp [encode, kindOf, kindOfFamilyF, Instr.kind]
  | cls | ret => rfl
  | _ => simp [encode, kindOf, Instr.kind]

/-- Each operand of an instruction stands in the field its format names. -/
theorem classify_encode_instr (i : Instr) : (classify (encode i)).instr = some i := by
  unfold Descriptor.instr
  rw [classify_kind, kindOf_encode]
  cases i <;> simp [Instr.kind, encode]

/-- Decoding the word of an instruction gives the instruction back. -/
@[simp] theorem decode_encode (i : Instr) : decode (encode i) = .ok i := decode_eq_ok.2 (classify_encode_instr i)

/-- A word's own number in the opcode table is that word. -/
@[simp] theorem tableWord_toNat (op : Word) : tableWord 16 op.toNat = op := by
  rw [tableWord, Nat.mod_eq_of_lt op.isLt, BitVec.ofNat_toNat, BitVec.setWidth_eq]

end Sys2Proof

/-! ### A placed word is the one fetched (log 20) -/

namespace Sys2Proof.Machine

theorem fetchablePc_lt (pc : Word) : (fetchablePc pc).toNat < 0xFFF := by
  unfold fetchablePc
  split
  · decide
  · omega

theorem fetchablePc_of_lt {pc : Word} (h : pc.toNat < 0xFFF) : fetchablePc pc = pc := if_neg (by omega)

theorem runnableStatus_ne_fault (st : Status) : (runnableStatus st).state ≠ .fault := by
  unfold runnableStatus
  split
  · decide
  · assumption

theorem runnableStatus_of_ne {st : Status} (h : st.state ≠ .fault) : runnableStatus st = st := by
  unfold runnableStatus
  split
  · contradiction
  · rfl

/-- Memory after a word is placed: its two bytes, the high one first, every other byte as before (20_memory R64, R65). -/
theorem State.read_placeWord {s : State} {a : Nat} (op : Word) (b : Nat) (hm : s.mem.wf = true) (ha : a < 0xFFF) :
    (s.placeWord a op).mem.read b =
      if b = a then highByte op else if b = a + 1 then lowByte op else s.mem.read b := by
  rw [State.placeWord_mem, Memory.writeList, Memory.writeList, Memory.writeList,
    Memory.read_write _ _ _ (Memory.wf_write _ hm (by omega)), Memory.read_write _ _ _ hm]
  split
  · rw [if_neg (by omega)]
  · rfl

/-- The word placed at `pc` is the one fetched. -/
theorem fetch_placeWord {s : State} (op : Word) (hm : s.mem.wf = true) (hpc : s.pc.toNat < 0xFFF) :
    fetch (s.placeWord s.pc.toNat op) = .ok op := by
  rw [fetch_of_lt (s := s.placeWord s.pc.toNat op) hpc, State.placeWord_pc, State.read_placeWord op _ hm hpc,
    State.read_placeWord op _ hm hpc, if_pos rfl, if_neg (by omega), if_pos rfl, bigEndian_bytes]

/-- A state made one in which the next step fetches and runs. -/
def State.madeFetchable (s : State) : State := { s with pc := fetchablePc s.pc, status := runnableStatus s.status }

/-- `withFetchWord` places the word at `pc` of the state made fetchable. -/
theorem State.withFetchWord_eq (s : State) (op : Word) :
    s.withFetchWord 16 op.toNat = s.madeFetchable.placeWord s.madeFetchable.pc.toNat op := by
  rw [State.withFetchWord, tableWord_toNat]; rfl

/-- A state that can fetch is left as it is. -/
theorem State.madeFetchable_eq {s : State} (hrun : s.status.state ≠ .fault) (hpc : s.pc.toNat < 0xFFF) :
    s.madeFetchable = s := by
  rw [State.madeFetchable, fetchablePc_of_lt hpc, runnableStatus_of_ne hrun]

/-- The step after an instruction's word is placed executes that instruction, `curOp` holding the word. -/
theorem step_withFetchWord {s : State} (i : Instr) (hm : s.mem.wf = true) :
    step (s.withFetchWord 16 (encode i).toNat) =
      exec i ((s.withFetchWord 16 (encode i).toNat).writeCurOp (encode i)) := by
  rw [State.withFetchWord_eq]
  exact cycle_executes exec (runnableStatus_ne_fault s.status)
    (fetch_placeWord (s := s.madeFetchable) (encode i) hm (fetchablePc_lt s.pc)) (decode_encode i)

/-- Settles O11: the next step fetches and decodes the placed word, and a state that can fetch is left but for the two
bytes at `pc`. -/
theorem placedWordRunsNext : Obligations.PlacedWordRunsNext := by
  intro s i hm
  refine ⟨step_withFetchWord i hm, fun hrun hpc => ?_⟩
  rw [State.withFetchWord_eq, State.madeFetchable_eq hrun hpc]
  refine ⟨rfl, fun a hhigh hlow => ?_⟩
  rw [State.read_placeWord _ a hm hpc, if_neg hhigh, if_neg hlow]

end Sys2Proof.Machine

/-! ## The encoding family (30_encoding) -/

/-! ### Decoding inverts encoding (R90, R92, R95) -/

namespace Sys2Proof

/-- The bytes of an instruction decode to it, and whatever follows them is given back. -/
@[simp] theorem decodeBytes_encodeBytes_append (i : Instr) (rest : List Byte) :
    decodeBytes (encodeBytes i ++ rest) = .ok (i, rest) := by
  simp [encodeBytes, decodeBytes]

/-- The decoder on a word's number in the opcode table is `decode` on the word. -/
theorem decodeTableWord_toNat (op : Word) : decodeTableWord 16 op.toNat = (decode op).toOption := by
  rw [decodeTableWord, tableWord_toNat, decodeBytes, bigEndian_bytes]
  cases decode op <;> rfl

/-- Settles O2: `decode_encode`, on the word, on its bytes and on its number in the opcode table. -/
theorem decodeInvertsEncode : Obligations.DecodeInvertsEncode := fun i rest =>
  ⟨decode_encode i, decodeBytes_encodeBytes_append i rest, by rw [decodeTableWord_toNat, decode_encode]; rfl⟩

/-! ### The fields as shifts and masks (R91) -/

theorem setWidth_extractLsb'_eq_shift_mask (op : Word) (start : Nat) {len : Nat} (h : len < 16) :
    (op.extractLsb' start len).setWidth 16 = op >>> start &&& BitVec.ofNat 16 (2 ^ len - 1) := by
  have hlen : 2 ^ len < 2 ^ 16 := Nat.pow_lt_pow_right (by decide) h
  have hmod : op.toNat >>> start % 2 ^ len < 2 ^ len := Nat.mod_lt _ (Nat.two_pow_pos len)
  apply BitVec.eq_of_toNat_eq
  rw [BitVec.toNat_setWidth, BitVec.extractLsb'_toNat, BitVec.toNat_and, BitVec.toNat_ushiftRight, BitVec.toNat_ofNat,
    Nat.mod_eq_of_lt (hmod.trans hlen), Nat.mod_eq_of_lt (a := 2 ^ len - 1) (by omega), Nat.and_two_pow_sub_one_eq_mod]

/-- The register number that a field reads, as the field's bits. -/
@[simp] theorem regBits_toFin (b : Nibble) : regBits b.toFin = b := by
  apply BitVec.eq_of_toNat_eq; rw [regBits_number]; rfl

/-- Settles O1: each field is an `extractLsb'` of the word. -/
theorem fieldsAreShiftsAndMasks : Obligations.FieldsAreShiftsAndMasks := by
  intro op
  rw [classify_x, classify_y, fieldX, fieldY, regBits_toFin, regBits_toFin]
  exact ⟨setWidth_extractLsb'_eq_shift_mask op 12 (by decide), setWidth_extractLsb'_eq_shift_mask op 8 (by decide),
    setWidth_extractLsb'_eq_shift_mask op 4 (by decide), setWidth_extractLsb'_eq_shift_mask op 0 (by decide),
    setWidth_extractLsb'_eq_shift_mask op 0 (by decide), setWidth_extractLsb'_eq_shift_mask op 0 (by decide)⟩

/-- Settles O6: the decoder evaluated on each word. -/
theorem sampleWordsDecode : Obligations.SampleWordsDecode := by
  unfold Obligations.SampleWordsDecode
  decide

/-! ### A word is its own fields, laid out in any format (R91, R92) -/

theorem formatNnn_fields (op : Word) : formatNnn (fieldF op) (fieldNnn op) = op := by
  apply BitVec.eq_of_toNat_eq; rw [formatNnn_number, fieldF_number, fieldNnn_number]; omega

theorem formatXnn_fields (op : Word) : formatXnn (fieldF op) (fieldX op) (fieldNn op) = op := by
  apply BitVec.eq_of_toNat_eq; rw [formatXnn_number, fieldF_number, fieldX_number, fieldNn_number]; omega

theorem formatXyn_fields (op : Word) : formatXyn (fieldF op) (fieldX op) (fieldY op) (fieldN op) = op := by
  apply BitVec.eq_of_toNat_eq
  rw [formatXyn_number, fieldF_number, fieldX_number, fieldY_number, fieldN_number]; omega

theorem nibble_and_ones (b : Nibble) : b &&& 0xF#4 = b := BitVec.and_allOnes
theorem byte_and_ones (b : Byte) : b &&& 0xFF#8 = b := BitVec.and_allOnes
theorem word_and_ones (op : Word) : op &&& 0xFFFF#16 = op := BitVec.and_allOnes

/-- The mask of the family alone keeps it and clears the rest. -/
theorem and_family (op : Word) : op &&& 0xF000#16 = formatNnn (fieldF op) 0 :=
  calc op &&& 0xF000#16
    _ = formatNnn (fieldF op) (fieldNnn op) &&& formatNnn 0xF 0 := by rw [formatNnn_fields]; rfl
    _ = formatNnn (fieldF op) 0 := by
      rw [formatNnn, formatNnn, BitVec.and_append]
      simp [formatNnn, nibble_and_ones]

/-- The mask of family and low byte keeps both and clears the rest. -/
theorem and_family_byte (op : Word) : op &&& 0xF0FF#16 = formatXnn (fieldF op) 0 (fieldNn op) :=
  calc op &&& 0xF0FF#16
    _ = formatXnn (fieldF op) (fieldX op) (fieldNn op) &&& formatXnn 0xF 0 0xFF := by rw [formatXnn_fields]; rfl
    _ = formatXnn (fieldF op) 0 (fieldNn op) := by
      rw [formatXnn, formatXnn, BitVec.and_append, BitVec.and_append]
      simp [formatXnn, regBits, nibble_and_ones, byte_and_ones]

/-- The mask of family and low nibble keeps both and clears the rest. -/
theorem and_family_nibble (op : Word) : op &&& 0xF00F#16 = formatXyn (fieldF op) 0 0 (fieldN op) :=
  calc op &&& 0xF00F#16
    _ = formatXyn (fieldF op) (fieldX op) (fieldY op) (fieldN op) &&& formatXyn 0xF 0 0 0xF := by
      rw [formatXyn_fields]; rfl
    _ = formatXyn (fieldF op) 0 0 (fieldN op) := by
      rw [formatXyn, formatXyn, BitVec.and_append, BitVec.and_append, BitVec.and_append]
      simp [formatXyn, regBits, nibble_and_ones]

/-! ### The bits the classifier reads (R96) -/

/-- The mask of the bits the classifier reads of a word, by the word's family. -/
def readBits (f : Nibble) : Word :=
  match f with
  | 0x0#4 => 0xFFFF#16
  | 0x1#4 | 0x2#4 | 0x3#4 | 0x4#4 | 0x6#4 | 0x7#4 | 0xA#4 | 0xB#4 | 0xC#4 | 0xD#4 => 0xF000#16
  | 0x5#4 | 0x8#4 | 0x9#4 => 0xF00F#16
  | _ => 0xF0FF#16

theorem fieldF_readBits : ∀ f : Nibble, fieldF (readBits f) = 0xF := by decide
theorem fieldN_readBits : ∀ f ∈ [0x5#4, 0x8#4, 0x9#4], fieldN (readBits f) = 0xF := by decide
theorem fieldNn_readBits : ∀ f ∈ [0xE#4, 0xF#4], fieldNn (readBits f) = 0xFF := by decide

theorem fieldF_and_readBits (op : Word) (f : Nibble) : fieldF (op &&& readBits f) = fieldF op :=
  (fieldF_of_mask rfl (fieldF_readBits f)).symm

/-- The classifier does not see the other bits. -/
theorem kindOf_and_readBits (op : Word) : kindOf (op &&& readBits (fieldF op)) = kindOf op := by
  unfold kindOf
  rw [fieldF_and_readBits]
  split
  case h_1 hf => rw [hf, readBits, word_and_ones]
  all_goals simp [readBits, and_family_byte, and_family_nibble, *]

/-! ### The row of a word (R95, R96) -/

/-- The row a word is read as: its kind, and the bits the classifier reads of it as the pattern. -/
def rowOf (op : Word) : Row := ⟨kindOf op, op &&& readBits (fieldF op), readBits (fieldF op)⟩

theorem rowOf_selects (op : Word) : (rowOf op).selects op = true := by simp [rowOf, Row.selects]

theorem kindOfFamily0_row {op : Word} (h : kindOfFamily0 op ≠ .unknown) :
    (⟨kindOfFamily0 op, op, 0xFFFF⟩ : Row) ∈ opcodeTable := by
  unfold kindOfFamily0 at *
  split
  · subst op; decide
  · split
    · subst op; decide
    · simp_all

theorem kindOfFamily8_row : ∀ n : Nibble, kindOfFamily8 n ≠ .unknown →
    (⟨kindOfFamily8 n, formatXyn 0x8 0 0 n, 0xF00F⟩ : Row) ∈ opcodeTable := by decide

theorem kindOfFamilyE_row : ∀ nn : Byte, kindOfFamilyE nn ≠ .unknown →
    (⟨kindOfFamilyE nn, formatXnn 0xE 0 nn, 0xF0FF⟩ : Row) ∈ opcodeTable := by decide

theorem kindOfFamilyF_row : ∀ nn : Byte, kindOfFamilyF nn ≠ .unknown →
    (⟨kindOfFamilyF nn, formatXnn 0xF 0 nn, 0xF0FF⟩ : Row) ∈ opcodeTable := by decide

/-- The row of a known word is a row of the opcode table. -/
theorem rowOf_mem {op : Word} (h : kindOf op ≠ .unknown) : rowOf op ∈ opcodeTable := by
  unfold rowOf
  unfold kindOf at *
  split
  case h_1 hf => simpa [hf, readBits, word_and_ones] using kindOfFamily0_row (by simpa [hf] using h)
  case h_6 hf | h_10 hf =>
    have hn : fieldN op = 0 := by simpa [hf] using h
    simp only [hf, hn, readBits, and_family_nibble]; decide
  case h_9 hf =>
    simpa [hf, readBits, and_family_nibble] using kindOfFamily8_row (fieldN op) (by simpa [hf] using h)
  case h_15 hf => simpa [hf, readBits, and_family_byte] using kindOfFamilyE_row (fieldNn op) (by simpa [hf] using h)
  case h_16 =>
    have hf : fieldF op = 0xF := by simp only [imp_false] at *; bv_omega
    simpa [hf, readBits, and_family_byte] using kindOfFamilyF_row (fieldNn op) (by simpa [hf] using h)
  case h_2 hf | h_3 hf | h_4 hf | h_5 hf | h_7 hf | h_8 hf | h_11 hf | h_12 hf | h_13 hf | h_14 hf =>
    simp only [hf, readBits, and_family]; decide

theorem opcodeTable_kinds_nodup : (opcodeTable.map Row.kind).Nodup := by decide

theorem opcodeTable_kind_known : ∀ r ∈ opcodeTable, r.kind ≠ .unknown := by decide

/-- Each row fixes exactly the bits the classifier reads in its family, and its pattern has its kind. -/
theorem opcodeTable_mask_kind : ∀ r ∈ opcodeTable, r.mask = readBits (fieldF r.pattern) ∧ kindOf r.pattern = r.kind := by
  decide

/-- A row of the table that selects a word is the row of the word. -/
theorem rowOf_eq_of_selects {op : Word} {r : Row} (hr : r ∈ opcodeTable) (h : r.selects op = true) : rowOf op = r := by
  obtain ⟨hmask, hkind⟩ := opcodeTable_mask_kind r hr
  have hand : op &&& r.mask = r.pattern := by simpa [Row.selects] using h
  have hf : fieldF r.pattern = fieldF op := by rw [← hand, hmask, fieldF_and_readBits]
  rw [hf] at hmask
  rw [rowOf, ← kindOf_and_readBits, ← hmask, hand, hkind]

/-- No two rows of the table have one kind, so the kind gives the row. -/
theorem rowOf_eq_iff_kindOf_eq {op : Word} {r : Row} (hr : r ∈ opcodeTable) : rowOf op = r ↔ kindOf op = r.kind := by
  refine ⟨fun h => h ▸ rfl, fun h => ?_⟩
  have hknown : kindOf op ≠ .unknown := h ▸ opcodeTable_kind_known r hr
  exact List.inj_on_of_nodup_map opcodeTable_kinds_nodup (rowOf_mem hknown) hr h

/-- Settles O4: a row of the table selects a word, or has its kind, exactly when it is the row of the word. -/
theorem classifierSelectsTheTableRow : Obligations.ClassifierSelectsTheTableRow := fun op _ hr =>
  ⟨fun h => (rowOf_eq_iff_kindOf_eq hr).1 (rowOf_eq_of_selects hr h),
   fun h => (rowOf_eq_iff_kindOf_eq hr).2 h ▸ rowOf_selects op⟩

/-! ### Encoding inverts decoding (R98, D9) -/

/-- A word and the word of the instruction it decodes to stand in one row. -/
theorem rowOf_encode_of_decode {op : Word} {i : Instr} (h : decode op = .ok i) : rowOf op = rowOf (encode i) := by
  have hi := decode_eq_ok.1 h
  have hknown : kindOf op ≠ .unknown := mt (Descriptor.instr_eq_none (d := classify op)).2 (by simp [hi])
  have hkind : kindOf (encode i) = kindOf op := by rw [kindOf_encode, Descriptor.kind_of_instr hi, classify_kind]
  exact ((rowOf_eq_iff_kindOf_eq (rowOf_mem hknown)).2 hkind).symm

/-! What two words in one row have in common. -/

theorem fieldF_eq_of_rowOf_eq {a b : Word} (h : rowOf a = rowOf b) : fieldF a = fieldF b := by
  have hpattern : a &&& readBits (fieldF a) = b &&& readBits (fieldF b) := congrArg Row.pattern h
  rw [← fieldF_and_readBits a (fieldF a), hpattern, fieldF_and_readBits]

theorem and_readBits_eq_of_rowOf_eq {a b : Word} (h : rowOf a = rowOf b) :
    a &&& readBits (fieldF b) = b &&& readBits (fieldF b) := by
  have hpattern : a &&& readBits (fieldF a) = b &&& readBits (fieldF b) := congrArg Row.pattern h
  rwa [fieldF_eq_of_rowOf_eq h] at hpattern

theorem fieldN_eq_of_rowOf_eq {a b : Word} (h : rowOf a = rowOf b) (hb : fieldF b ∈ [0x5#4, 0x8#4, 0x9#4]) :
    fieldN a = fieldN b :=
  (fieldN_of_mask (and_readBits_eq_of_rowOf_eq h) (fieldN_readBits _ hb)).trans
    (fieldN_of_mask rfl (fieldN_readBits _ hb)).symm

theorem fieldNn_eq_of_rowOf_eq {a b : Word} (h : rowOf a = rowOf b) (hb : fieldF b ∈ [0xE#4, 0xF#4]) :
    fieldNn a = fieldNn b :=
  (fieldNn_of_mask (and_readBits_eq_of_rowOf_eq h) (fieldNn_readBits _ hb)).trans
    (fieldNn_of_mask rfl (fieldNn_readBits _ hb)).symm

/-- Family 0 has no operand: a word in the row of one of its words is that word. -/
theorem eq_of_rowOf_eq {a b : Word} (h : rowOf a = rowOf b) (hb : fieldF b = 0) : a = b := by
  simpa [hb, readBits, word_and_ones] using and_readBits_eq_of_rowOf_eq h

/-! A word in the row of a format's word is that format of its own operand fields. -/

theorem formatNnn_of_rowOf_eq {op : Word} {f : Nibble} {a : Addr} (h : rowOf op = rowOf (formatNnn f a)) :
    formatNnn f (fieldNnn op) = op := by
  have hf : fieldF op = f := by simpa using fieldF_eq_of_rowOf_eq h
  rw [← hf, formatNnn_fields]

theorem formatXnn_of_rowOf_eq {op : Word} {f : Nibble} {x : Reg} {nn : Byte} (h : rowOf op = rowOf (formatXnn f x nn)) :
    formatXnn f (fieldX op) (fieldNn op) = op := by
  have hf : fieldF op = f := by simpa using fieldF_eq_of_rowOf_eq h
  rw [← hf, formatXnn_fields]

theorem formatXnn_fixed_of_rowOf_eq {op : Word} {f : Nibble} {x : Reg} {nn : Byte}
    (h : rowOf op = rowOf (formatXnn f x nn)) (hf : f ∈ [0xE#4, 0xF#4]) : formatXnn f (fieldX op) nn = op := by
  have hnn : fieldNn op = nn := by simpa using fieldNn_eq_of_rowOf_eq h (by simpa using hf)
  simpa only [hnn] using formatXnn_of_rowOf_eq h

theorem formatXyn_of_rowOf_eq {op : Word} {f n : Nibble} {x y : Reg} (h : rowOf op = rowOf (formatXyn f x y n)) :
    formatXyn f (fieldX op) (fieldY op) (fieldN op) = op := by
  have hf : fieldF op = f := by simpa using fieldF_eq_of_rowOf_eq h
  rw [← hf, formatXyn_fields]

theorem formatXyn_fixed_of_rowOf_eq {op : Word} {f n : Nibble} {x y : Reg}
    (h : rowOf op = rowOf (formatXyn f x y n)) (hf : f ∈ [0x5#4, 0x8#4, 0x9#4]) :
    formatXyn f (fieldX op) (fieldY op) n = op := by
  have hn : fieldN op = n := by simpa using fieldN_eq_of_rowOf_eq h (by simpa using hf)
  simpa only [hn] using formatXyn_of_rowOf_eq h

/-- Settles O3: the row fixes every bit that is no operand, and the operands are the word's own fields. -/
theorem encodeInvertsDecode : Obligations.EncodeInvertsDecode := by
  intro op i h
  have hrow := rowOf_encode_of_decode h
  have hi := decode_eq_ok.1 h
  have hk := Descriptor.kind_of_instr hi
  rw [Descriptor.instr, ← hk] at hi
  cases i with
  | cls | ret => exact (eq_of_rowOf_eq hrow rfl).symm
  | jp | call | ldI | jpV0 =>
    cases hi
    exact formatNnn_of_rowOf_eq hrow
  | seImm | sneImm | ldImm | addImm | rnd =>
    cases hi
    exact formatXnn_of_rowOf_eq hrow
  | drw =>
    cases hi
    exact formatXyn_of_rowOf_eq hrow
  | seReg | sneReg | ldReg | orReg | andReg | xorReg | addReg | sub | shr | subn | shl =>
    cases hi
    exact formatXyn_fixed_of_rowOf_eq hrow (by decide)
  | skp | sknp | ldVxDt | ldVxK | ldDtVx | ldStVx | addIVx | ldFVx | ldBVx | stRegs | ldRegs =>
    cases hi
    exact formatXnn_fixed_of_rowOf_eq hrow (by decide)

/-! ### The unknown space (R99, D9) -/

theorem kindOfFamily0_eq_unknown {op : Word} :
    kindOfFamily0 op = .unknown ↔ op.toNat ≠ 0x00E0 ∧ op.toNat ≠ 0x00EE := by
  have hcls : op = 0x00E0#16 ↔ op.toNat = 0x00E0 := BitVec.toNat_eq
  have hret : op = 0x00EE#16 ↔ op.toNat = 0x00EE := BitVec.toNat_eq
  unfold kindOfFamily0
  split
  · simp_all
  · split <;> simp_all

theorem kindOfFamily8_eq_unknown : ∀ n : Nibble,
    kindOfFamily8 n = .unknown ↔ n.toNat ∈ [8, 9, 10, 11, 12, 13, 15] := by decide

theorem kindOfFamilyE_eq_unknown : ∀ nn : Byte, kindOfFamilyE nn = .unknown ↔ nn.toNat ∉ [0x9E, 0xA1] := by decide

theorem kindOfFamilyF_eq_unknown : ∀ nn : Byte,
    kindOfFamilyF nn = .unknown ↔ nn.toNat ∉ [0x07, 0x0A, 0x15, 0x18, 0x1E, 0x29, 0x33, 0x55, 0x65] := by decide

/-- Settles O5: family by family, the words whose kind is UNKNOWN. -/
theorem rejectedWordsAreTheUnknownSpace : Obligations.RejectedWordsAreTheUnknownSpace := by
  intro op
  rw [decode_eq_error, Descriptor.instr_eq_none, classify_kind, ← fieldF_number, ← fieldN_number, ← fieldNn_number,
    ← kindOfFamily0_eq_unknown, ← kindOfFamily8_eq_unknown, ← kindOfFamilyE_eq_unknown, ← kindOfFamilyF_eq_unknown]
  unfold kindOf
  split
  case h_6 hf | h_10 hf => simp [hf, BitVec.toNat_eq]
  case h_16 =>
    have hf : fieldF op = 0xF := by simp only [imp_false] at *; bv_omega
    simp [hf]
  all_goals simp [*]

end Sys2Proof

/-! ### The disassembler (R106, R108; D26, log 24) -/

namespace Sys2Proof.Machine

theorem disassembleFrom_length (withAddress : Bool) : ∀ (a : Nat) (rom : List Byte),
    (disassembleFrom withAddress a rom).length = rom.length / 2
  | _, [] | _, [_] => by simp [disassembleFrom]
  | a, _ :: _ :: rest => by simp [disassembleFrom, disassembleFrom_length withAddress (a + 2) rest]; omega

/-- Line `k` of a walk from `a` on is that of the word at offset `2k`. -/
theorem disassembleFrom_line (withAddress : Bool) : ∀ (a : Nat) (rom : List Byte) (k : Nat), k < rom.length / 2 →
    (disassembleFrom withAddress a rom)[k]? =
      some (disassembleLine withAddress (a + 2 * k) (bigEndian (rom.getD (2 * k) 0) (rom.getD (2 * k + 1) 0)))
  | _, [], _, hk | _, [_], _, hk => by simp at hk
  | _, _ :: _ :: _, 0, _ => rfl
  | a, _ :: _ :: rest, k + 1, hk => by
    have hrest : k < rest.length / 2 := by simp at hk; omega
    have hline := disassembleFrom_line withAddress (a + 2) rest k hrest
    rw [show a + 2 + 2 * k = a + 2 * (k + 1) by omega] at hline
    simpa [disassembleFrom, Nat.mul_add] using hline

/-- Settles O59: by induction on the walk, two bytes at a time. -/
theorem disassemblerPrintsOneLineAnOpcode : Obligations.DisassemblerPrintsOneLineAnOpcode := fun withAddress rom =>
  ⟨disassembleFrom_length withAddress _ rom, disassembleFrom_line withAddress _ rom⟩

end Sys2Proof.Machine

/-! ## The dispatch family (40_dispatch) -/

/-! ### The status after an instruction (R120, R129, R131) -/

namespace Sys2Proof.Machine

/-- An instruction stops in FAULT, but for `Fx0A` with no key pressed, which waits (40_dispatch R120, 45_timers_input
R305). -/
theorem haltStatus_cases {p : Params} {i : Instr} {s : State} {st : Status} (h : haltStatus p i s = some st) :
    st.state = .fault ∨ (st = ⟨.waitKey, .none, 0⟩ ∧ (∃ x, i = .ldVxK x) ∧ pressedKeys s = []) := by
  have indexed : ∀ n, indexHalt s n = some st → st.state = .fault := by
    intro n hn
    obtain ⟨-, ⟨⟩⟩ := Option.ite_none_left_eq_some.1 hn
    rfl
  cases i with
  | ldVxK x =>
    obtain ⟨hkeys, ⟨⟩⟩ := Option.ite_none_right_eq_some.1 h
    exact .inr ⟨rfl, ⟨x, rfl⟩, hkeys⟩
  | ret | call | skp | sknp =>
    obtain ⟨-, ⟨⟩⟩ := Option.ite_none_right_eq_some.1 h
    exact .inl rfl
  | drw | ldBVx | stRegs | ldRegs => exact .inl (indexed _ h)
  | _ => cases h

/-- A status an instruction stops with is never RUN. -/
theorem haltStatus_ne_run {p : Params} {i : Instr} {s : State} {st : Status} (h : haltStatus p i s = some st) :
    st.state ≠ .run := by
  rcases haltStatus_cases h with hf | ⟨rfl, -, -⟩
  · simp [hf]
  · simp

/-- Settles O21: completing leaves Ok, and `haltStatus_cases` says what stopping leaves. -/
theorem statusAfterAnInstruction : Obligations.StatusAfterAnInstruction := by
  intro i s t h
  obtain rfl := exec_eq_next.1 h
  rcases answer_cases hardware i s with ⟨st, hh, he⟩ | ⟨-, he⟩ <;> rw [he]
  · rcases haltStatus_cases hh with hf | ⟨hst, hi, hkeys⟩
    · exact .inr (.inr hf)
    · exact .inr (.inl ⟨hst, hi, (pressedKeys_eq_nil s).1 hkeys⟩)
  · exact .inl rfl

/-- An instruction that ends in FAULT has stopped, and so changed the status alone (40_dispatch R129). -/
theorem answer_fault {p : Params} {i : Instr} {s : State} (h : (answer p i s).status.state = .fault) :
    answer p i s = { s with status := (answer p i s).status } := by
  rcases answer_cases p i s with ⟨st, -, he⟩ | ⟨-, he⟩
  · rw [he]
  · rw [he] at h; cases h

/-- A step that ends in FAULT was halted, or raised at fetch, or ran an instruction that stopped. -/
theorem stepWith_fault {p : Params} {s t : State} (h : stepWith p s = .next t) (hf : t.status.state = .fault) :
    t = { s with curOp := t.curOp, status := t.status } := by
  rcases cycle_cases h with ⟨-, rfl⟩ | ⟨-, ⟨c, -, rfl⟩ | ⟨op, -, ⟨i, -, hx⟩ | ⟨e, -, rfl⟩⟩⟩
  · rfl
  · rfl
  · obtain rfl := execWith_eq_next.1 hx
    rw [answer_fault hf]; rfl
  · cases hf

/-- Settles O19: `answer_fault` for an instruction, `stepWith_fault` for a step. -/
theorem faultingStepsChangeOnlyStatus : Obligations.FaultingStepsChangeOnlyStatus := by
  refine ⟨fun i s t h hf => ?_, fun s t h hf => ?_⟩
  · obtain rfl := exec_eq_next.1 h
    exact answer_fault hf
  · rw [← stepWith_hardware] at h
    exact stepWith_fault h hf

/-! ### The pc after an instruction (R127 to R129) -/

/-- `seq`: the pc advances by 2 (40_dispatch R127). -/
theorem completed_pc_of_seq (p : Params) {i : Instr} (s : State) (h : pcKind i = .seq) :
    (completed p i s).pc = mask12 (s.pc + 2) := by
  cases i with
  | seImm | sneImm | seReg | sneReg | skp | sknp | jp | call | jpV0 | ret => cases h
  | _ => simp [completed]

/-- `skip`: the pc advances by 4 or by 2 (40_dispatch R127, 41_control_flow R140). -/
theorem completed_pc_of_skip (p : Params) {i : Instr} (s : State) (h : pcKind i = .skip) :
    (completed p i s).pc = mask12 (s.pc + 2) ∨ (completed p i s).pc = mask12 (s.pc + 4) := by
  have advance : ∀ c : Bool, (s.writePc (s.pc + if c then 4 else 2)).pc = mask12 (s.pc + 2) ∨
      (s.writePc (s.pc + if c then 4 else 2)).pc = mask12 (s.pc + 4) := by
    rintro (_ | _)
    · exact .inl rfl
    · exact .inr rfl
  cases i with
  | seImm | sneImm | seReg | sneReg | skp | sknp => exact advance _
  | _ => cases h

/-- Settles O24: stopping leaves the pc, and completing updates it by the kind, masked. -/
theorem pcFollowsItsUpdateKind : Obligations.PcFollowsItsUpdateKind := by
  intro i s t h
  obtain rfl := exec_eq_next.1 h
  rcases answer_cases hardware i s with ⟨st, hh, he⟩ | ⟨-, he⟩ <;> rw [he]
  · exact ⟨fun _ => rfl, fun hrun => absurd hrun (haltStatus_ne_run hh)⟩
  · refine ⟨fun hrun => absurd rfl hrun, fun _ => ⟨fun hseq => ?_, fun hskip => ?_, ?_⟩⟩
    · exact (congrArg BitVec.toNat (completed_pc_of_seq hardware s hseq)).trans (mask12_add s.pc 2)
    · exact (completed_pc_of_skip hardware s hskip).imp
        (fun h2 => (congrArg BitVec.toNat h2).trans (mask12_add s.pc 2))
        (fun h4 => (congrArg BitVec.toNat h4).trans (mask12_add s.pc 4))
    · obtain ⟨a, ha⟩ := completed_pc hardware i s
      exact ha ▸ mask12_lt a

/-! ### Indexed accesses past the top (R130) -/

/-- An instruction that accesses `n` bytes from an `I` below 4096 and reaches past 0xFFF raises for the byte at 0x1000. -/
theorem exec_faults_past_top {i : Instr} {s : State} {n : Nat} (hh : haltStatus hardware i s = indexHalt s n)
    (hi : s.i.toNat < 4096) (hn : n ≠ 0) (htop : 4096 < s.i.toNat + n) :
    ∃ t, exec i s = .next t ∧ FaultsWith .memoryOutOfRange 0x1000 s t := by
  refine ⟨_, exec_next i s, ?_⟩
  rw [indexHalt_of_not_inRange ((inRange_false_iff _ _).2 ⟨hn, htop⟩), lowestOutOfRange_of_lt hi] at hh
  exact answer_of_halt hardware i hh

/-- Settles O48: `exec_faults_past_top` at the number of bytes of each of the four. -/
theorem indexedAccessPastTheTopFaults : Obligations.IndexedAccessPastTheTopFaults := by
  intro x y n s hi
  refine ⟨fun h => ?_, fun h => ?_, fun h => ?_, fun hn h => ?_⟩
  · exact exec_faults_past_top (n := 3) rfl hi (by omega) (by omega)
  · exact exec_faults_past_top (n := x.val + 1) rfl hi (by omega) (by omega)
  · exact exec_faults_past_top (n := x.val + 1) rfl hi (by omega) (by omega)
  · exact exec_faults_past_top (n := n.toNat) rfl hi (by omega) (by omega)

/-! ### Unknown opcodes (R126) -/

/-- A fetched word that does not decode is reported with `curOp` holding it. -/
theorem cycle_unknown (execute : Instr → State → Result) {s : State} {op : Word} {e : DecodeError}
    (h : s.status.state ≠ .fault) (hf : fetch s = .ok op) (hd : decode op = .error e) :
    cycle execute s = unimplemented (s.writeCurOp op) := by
  unfold cycle
  split
  · contradiction
  · rw [hf]; dsimp only; rw [hd]

/-- Settles O8: the fetch below 0xFFF reads both bytes, and `cycle` reports what does not decode. -/
theorem unknownOpcodeReportsUnimplemented : Obligations.UnknownOpcodeReportsUnimplemented :=
  fun _ _ hrun hpc hdec => cycle_unknown exec hrun (fetch_of_lt hpc) hdec

/-! ### FAULT until a reset (R121) -/

/-- The elements of a halted machine that no transaction but a reset changes: those of 10_state R20 that neither the host
nor the loader writes. -/
def haltedElements (s : State) : Status × RegFile × Word × Word × List Addr × Display × Word :=
  (s.status, s.v, s.pc, s.i, s.stack, s.disp, s.curOp)

/-- A load changes memory alone. -/
theorem load_haltedElements {p : Params} {loading : Bool} {a : Addr} {b : Byte} {s t : State}
    (h : applyEventWith p loading (.load a b) s = .next t) : haltedElements t = haltedElements s := by
  simp only [applyEventWith] at h
  split at h
  · split at h
    · cases h
    · injection h with h; exact h ▸ rfl
  · cases h

/-- In FAULT every transaction but a reset leaves these elements: the step stays, and the host writes others. -/
theorem applyEventWith_halted {p : Params} {loading : Bool} {e : Event} {s t : State} (hf : s.status.state = .fault)
    (he : e ≠ .reset) (h : applyEventWith p loading e s = .next t) : haltedElements t = haltedElements s := by
  cases e with
  | reset => exact absurd rfl he
  | step =>
    obtain rfl := Host.Outcome.next.inj ((cycle_halted (execWith p) hf).symm.trans h)
    rfl
  | load a b => exact load_haltedElements h
  | keyIn | rnd | tmrWrite | tick | snap => injection h with h; exact h ▸ rfl

theorem status_of_haltedElements {s t : State} (h : haltedElements t = haltedElements s) : t.status = s.status :=
  congrArg Prod.fst h

/-- In FAULT a schedule without a reset leaves these elements. -/
theorem runEventsWith_halted {p : Params} {loading : Bool} {es : List Event} {s t : State}
    (hf : s.status.state = .fault) (hes : Event.reset ∉ es) (h : runEventsWith p loading es s = .next t) :
    haltedElements t = haltedElements s := by
  induction es generalizing loading s with
  | nil => injection h with h; exact h ▸ rfl
  | cons e es ih =>
    obtain ⟨he, hes⟩ := List.ne_and_not_mem_of_not_mem_cons hes
    obtain ⟨u, hu, hrest⟩ := runEventsWith_cons.1 h
    have hsu := applyEventWith_halted hf he.symm hu
    exact (ih (by rw [status_of_haltedElements hsu, hf]) hes hrest).trans hsu

/-- Settles O10: by induction on the schedule, at this hardware's parameters. -/
theorem haltedUntilReset : Obligations.HaltedUntilReset := by
  intro loading es s t hf hes h
  simpa only [haltedElements, Prod.mk.injEq] using runEventsWith_halted hf hes h

end Sys2Proof.Machine

/-! ## The control flow family (41_control_flow) -/

/-! ### What a row of the opcode table decodes to (30_encoding R95) -/

namespace Sys2Proof

/-- A word that a row selects decodes to the instruction of the row's kind with the word's own fields as operands. -/
theorem decode_of_row {op : Word} {r : Row} {i : Instr} (hr : r ∈ opcodeTable) (hop : op &&& r.mask = r.pattern)
    (hi : ({ classify op with kind := r.kind } : Descriptor).instr = some i) : decode op = .ok i := by
  have hkind : (classify op).kind = r.kind := (classifierSelectsTheTableRow op r hr).1 (beq_iff_eq.2 hop)
  rwa [← hkind, ← decode_eq_ok] at hi

end Sys2Proof

/-! ### Jumps and skips: the instructions that write the pc alone -/

namespace Sys2Proof.Machine

/-- What every instruction that completes with a new pc and nothing else leaves (40_dispatch R128). -/
theorem writePc_ends (a : Word) (s : State) :
    ∃ t, complete (s.writePc a) = .next t ∧ t.pc.toNat = a.toNat % 4096 ∧ OnlyPc s t ∧ t.status = ⟨.run, .none, 0⟩ :=
  ⟨_, rfl, mask12_number a, rfl, rfl⟩

/-- Settles O38: a target below 4096 is the pc as is. -/
theorem jumpTakesItsTarget : Obligations.JumpTakesItsTarget := by
  intro nnn s
  obtain ⟨t, ht, hpc, honly, hok⟩ := writePc_ends (address nnn) s
  refine ⟨t, ht, ?_, hok, honly⟩
  rw [hpc, address_number, Nat.mod_eq_of_lt nnn.isLt]

/-- Settles O39: the row of `Bnnn`, and the sum masked; what the 16-bit sum drops is a multiple of 4096. -/
theorem computedJumpAddsV0 : Obligations.ComputedJumpAddsV0 := by
  refine ⟨fun op hop => decode_of_row (r := ⟨.jpV0, 0xB000, 0xF000⟩) (by decide) hop rfl, fun nnn s => ?_⟩
  obtain ⟨t, ht, hpc, honly, hok⟩ := writePc_ends (s.readWide V0 + address nnn) s
  refine ⟨t, ht, ?_, honly, by simp [hok]⟩
  rw [hpc, BitVec.toNat_add, readWide_number, address_number, Nat.mod_mod_of_dvd _ (by decide)]

/-- What every skip leaves, by whether its test decides the condition (41_control_flow R140). -/
theorem skipIf_ends {b : Bool} {c : Prop} (hb : b = true ↔ c) (s : State) :
    ∃ t, complete (s.skipIf b) = .next t ∧ SkipsIf c s t ∧ OnlyPc s t ∧ t.status = ⟨.run, .none, 0⟩ := by
  obtain ⟨t, ht, hpc, hrest⟩ := writePc_ends (s.pc + if b then 4 else 2) s
  rw [← mask12_number] at hpc
  refine ⟨t, State.skipIf_eq b s ▸ ht, ⟨fun hc => ?_, fun hc => ?_⟩, hrest⟩
  · rw [hpc, if_pos (hb.2 hc)]
    exact mask12_add s.pc 4
  · rw [hpc, if_neg (mt hb.1 hc)]
    exact mask12_add s.pc 2

/-- Settles O42: `skipIf_ends` at each of the four tests. -/
theorem registerSkips : Obligations.RegisterSkips := fun _ _ _ s =>
  ⟨skipIf_ends beq_iff_eq s, skipIf_ends bne_iff_ne s, skipIf_ends beq_iff_eq s, skipIf_ends bne_iff_ne s⟩

/-! ### A call and its return -/

/-- Settles O41: the return pops the entry that the call pushed, the address of the next instruction. -/
theorem callThenReturnComesBack : Obligations.CallThenReturnComesBack := by
  intro nnn s t u hroom ht hu
  obtain ⟨hcall, -⟩ := callPushesTheReturnAddress
  obtain ⟨hret, -⟩ := returnPopsIntoPc
  obtain ⟨t', ht', -, ⟨a, hpushed, ha⟩, -⟩ := hcall nnn s hroom
  obtain rfl : t' = t := Host.Outcome.next.inj (ht'.symm.trans ht)
  obtain ⟨w, hw, hpc, hstack, -⟩ := hret u s.stack a (hu.trans hpushed)
  exact ⟨w, hw, hpc.trans ha, hstack⟩

end Sys2Proof.Machine

/-! ## The register ALU family (42_alu) -/

namespace Sys2Proof.Machine

/-! ### Sum and difference: the instructions with one destination and a flag (42_alu R181, R189, R190, R192) -/

/-- What every flagged instruction leaves on this hardware, whose flag is last, in terms of the numbers that the result
and the flag are. -/
theorem loadFlagged_ends (dests : List Reg) {r f : Byte} {m n : Nat} (s : State) (hr : r.toNat = m) (hf : f.toNat = n) :
    ∃ t, loadFlagged hardware dests r f s = .next t ∧ (∀ q ∈ dests, q ≠ VF → (t.readV q).toNat = m) ∧
      (t.readV VF).toNat = n ∧ SameRegsBut (dests ++ [VF]) s t ∧ OnlyRegs s t ∧ CompletesSeq s t := by
  obtain ⟨t, ht, h⟩ := loadFlagged_endsFlagged hardware dests r f s
  obtain ⟨hres, hflag, hsame⟩ := endsFlagged_flag_last h rfl
  obtain ⟨-, -, honly, hseq⟩ := h
  exact ⟨t, ht, fun q hq hne => (hres q hq hne).symm ▸ hr, hflag.symm ▸ hf, hsame, honly, hseq⟩

/-- A condition's flag as a number. -/
theorem flagByte_number (c : Prop) [Decidable c] : (flagByte (decide c)).toNat = if c then 1 else 0 := by
  rw [flagByte_decide]
  split <;> rfl

theorem carryFlag_number (a b : Byte) : (carryFlag a b).toNat = if a.toNat + b.toNat > 255 then 1 else 0 :=
  flagByte_number (a.toNat + b.toNat > 255)

theorem greaterFlag_number (a b : Byte) : (greaterFlag a b).toNat = if a.toNat > b.toNat then 1 else 0 :=
  flagByte_number (a.toNat > b.toNat)

/-- Settles O31: the sum of two bytes is modulo 256, and the flag is 1 exactly on a carry. -/
theorem addSetsCarry : Obligations.AddSetsCarry := by
  intro x y s
  obtain ⟨t, ht, hres, hrest⟩ := loadFlagged_ends [x] s (BitVec.toNat_add (s.readV x) (s.readV y))
    (carryFlag_number (s.readV x) (s.readV y))
  exact ⟨t, ht, hres x (List.mem_singleton_self x), hrest⟩

/-- The difference of two bytes, with the borrow added before the reduction (42_alu R190, R192). -/
theorem sub_number (a b : Byte) : (a - b).toNat = (a.toNat + 256 - b.toNat) % 256 := by
  have := b.isLt
  rw [BitVec.toNat_sub]; omega

/-- What both subtractions leave, `a` the minuend. -/
theorem subtract_ends (x : Reg) (a b : Byte) (s : State) :
    ∃ t, subtractWith hardware x a b s = .next t ∧ (x ≠ VF → (t.readV x).toNat = (a.toNat + 256 - b.toNat) % 256) ∧
      (t.readV VF).toNat = (if a.toNat > b.toNat then 1 else 0) ∧
      SameRegsBut [x, VF] s t ∧ OnlyRegs s t ∧ CompletesSeq s t := by
  obtain ⟨t, ht, hres, hrest⟩ := loadFlagged_ends [x] s (sub_number a b) (greaterFlag_number a b)
  exact ⟨t, ht, hres x (List.mem_singleton_self x), hrest⟩

/-- Settles O32: `subtract_ends` with the operands in either order. -/
theorem subtractsSetStrictGreater : Obligations.SubtractsSetStrictGreater := fun x y s =>
  ⟨subtract_ends x (s.readV x) (s.readV y) s, subtract_ends x (s.readV y) (s.readV x) s⟩

/-! ### The shifts and the bits they shift out, as numbers (42_alu R191, R193) -/

theorem ushiftRight_one_number (b : Byte) : (b >>> 1).toNat = b.toNat / 2 := by
  rw [ushiftRight_one_eq, BitVec.toNat_ofNat]; omega

theorem lsbFlag_number (b : Byte) : (lsbFlag b).toNat = b.toNat % 2 := by
  rw [lsbFlag_eq, BitVec.toNat_ofNat]; omega

theorem shiftLeft_one_number (b : Byte) : (b <<< 1).toNat = b.toNat * 2 % 256 := by
  rw [shiftLeft_one_eq, BitVec.toNat_ofNat]

theorem msbFlag_number (b : Byte) : (msbFlag b).toNat = b.toNat / 128 := by
  rw [msbFlag_eq, BitVec.toNat_ofNat]; omega

/-! ### The shifts write both registers (decision D29) -/

/-- What both shifts leave: the result in the two destinations of this hardware, the flag in `VF`. -/
theorem shift_ends (x y : Reg) {r f : Byte} {m n : Nat} (s : State) (hr : r.toNat = m) (hf : f.toNat = n) :
    ∃ t, loadFlagged hardware (shiftDests hardware x y) r f s = .next t ∧ (x ≠ VF → (t.readV x).toNat = m) ∧
      (y ≠ VF → (t.readV y).toNat = m) ∧ (t.readV VF).toNat = n ∧
      SameRegsBut [x, y, VF] s t ∧ OnlyRegs s t ∧ CompletesSeq s t := by
  obtain ⟨t, ht, hres, hrest⟩ := loadFlagged_ends [x, y] s hr hf
  exact ⟨t, ht, hres x (by simp), hres y (by simp), hrest⟩

/-- Settles O33: `shift_ends` at each shift's result and lost bit. -/
theorem shiftsWriteBothRegisters : Obligations.ShiftsWriteBothRegisters := fun x y s =>
  ⟨shift_ends x y s (ushiftRight_one_number _) (lsbFlag_number _),
    shift_ends x y s (shiftLeft_one_number _) (msbFlag_number _)⟩

/-! ### Instructions without a flag (42_alu R182) -/

/-- A load completes, so it does not fault. -/
theorem loadResult_no_fault (x : Reg) (r : Byte) (s : State) :
    ∃ t, loadResult x r s = .next t ∧ t.readV x = r ∧ SameRegsBut [x] s t ∧ OnlyRegs s t ∧ t.status.state ≠ .fault := by
  obtain ⟨t, ht, hx, hsame, honly, -, hok⟩ := loadResult_ends x r s
  exact ⟨t, ht, hx, hsame, honly, by rw [hok]; decide⟩

/-- Settles O28: the rows of `6xnn` and `8xy0`, and a load of the immediate or of `Vy`. -/
theorem loadsWriteTheirRegister : Obligations.LoadsWriteTheirRegister :=
  ⟨fun _ hop => decode_of_row (r := ⟨.ldImm, 0x6000, 0xF000⟩) (by decide) hop rfl,
    fun _ hop => decode_of_row (r := ⟨.ldReg, 0x8000, 0xF00F⟩) (by decide) hop rfl,
    fun x s => ⟨fun nn => loadResult_no_fault x nn s, fun y => loadResult_no_fault x (s.readV y) s⟩⟩

/-- Settles O29: the sum of two bytes is modulo 256, and the load leaves `VF` to the frame. -/
theorem addImmediateWrapsWithoutCarry : Obligations.AddImmediateWrapsWithoutCarry := by
  intro x nn s
  obtain ⟨t, ht, hx, hframe⟩ := loadResult_ends x (s.readV x + nn) s
  exact ⟨t, ht, by rw [hx, BitVec.toNat_add], hframe⟩

/-- What a load leaves, by the bits of the byte it loads. -/
theorem loadResult_bits (x : Reg) {r : Byte} {bit : Nat → Bool} (s : State) (hr : ∀ k, r.getLsbD k = bit k) :
    ∃ t, loadResult x r s = .next t ∧ (∀ k, (t.readV x).getLsbD k = bit k) ∧
      SameRegsBut [x] s t ∧ OnlyRegs s t ∧ CompletesSeq s t := by
  obtain ⟨t, ht, hx, hframe⟩ := loadResult_ends x r s
  exact ⟨t, ht, hx.symm ▸ hr, hframe⟩

/-- Settles O30: each operation on bytes is the operation on their bits. -/
theorem logicIsBitwise : Obligations.LogicIsBitwise := fun x _ s =>
  ⟨loadResult_bits x s fun _ => BitVec.getLsbD_or, loadResult_bits x s fun _ => BitVec.getLsbD_and,
    loadResult_bits x s fun _ => BitVec.getLsbD_xor⟩

end Sys2Proof.Machine

/-! ## The indexed memory family (43_index_memory) -/

namespace Sys2Proof.Machine

/-! ### The instructions that write `I` alone (R230 to R232) -/

/-- What every instruction that completes with a new `I` and nothing else leaves (10_state R25). -/
theorem writeI_ends (a : Word) (s : State) :
    ∃ t, complete (s.writeI a).seq = .next t ∧ t.i.toNat = a.toNat % 4096 ∧ OnlyIndex s t ∧ CompletesSeq s t :=
  ⟨_, rfl, mask12_number a, rfl, nextPc_number s, rfl⟩

/-- Settles O43: the row of `Annn`, and a 12-bit value that the mask leaves as is. -/
theorem loadIndexTakesItsAddress : Obligations.LoadIndexTakesItsAddress := by
  refine ⟨fun op hop => decode_of_row (r := ⟨.ldI, 0xA000, 0xF000⟩) (by decide) hop rfl, fun nnn s => ?_⟩
  obtain ⟨t, ht, hi, honly, -, hok⟩ := writeI_ends (address nnn) s
  refine ⟨t, ht, ?_, honly, by simp [hok, Status.ok]⟩
  rw [hi, address_number, Nat.mod_eq_of_lt nnn.isLt]

/-- Settles O44: what the 16-bit sum drops is a multiple of 4096, and five times a byte is an address. -/
theorem indexArithmetic : Obligations.IndexArithmetic := by
  refine fun x s => ⟨?_, ?_⟩
  · obtain ⟨t, ht, hi, hframe⟩ := writeI_ends (s.i + s.readWide x) s
    refine ⟨t, ht, ?_, hframe⟩
    rw [hi, BitVec.toNat_add, readWide_number, Nat.mod_mod_of_dvd _ (by decide)]
  · obtain ⟨t, ht, hi, hframe⟩ := writeI_ends (glyphAddress (s.readV x)) s
    have hbyte := (s.readV x).isLt
    refine ⟨t, ht, ?_, hframe⟩
    rw [hi, glyphAddress_number, Nat.mod_eq_of_lt (by omega)]

/-! ### Bytes written from a base upwards (20_memory R63) -/

/-- Below the base of the written bytes and past the last of them memory is as before. -/
theorem Memory.read_writeList_outside {m : Memory} {base a : Nat} {bs : List Byte} (h : m.wf = true)
    (hb : base + bs.length ≤ 4096) (ha : a < base ∨ base + bs.length ≤ a) : (m.writeList base bs).read a = m.read a := by
  rw [Memory.read_writeList a bs h hb, if_neg (by omega)]

/-- The `k`-th written byte is read back at `base + k`. -/
theorem Memory.read_writeList_inside {m : Memory} {base k : Nat} {bs : List Byte} (h : m.wf = true)
    (hb : base + bs.length ≤ 4096) (hk : k < bs.length) : (m.writeList base bs).read (base + k) = bs.getD k 0 := by
  rw [Memory.read_writeList (base + k) bs h hb, if_pos (by omega), Nat.add_sub_cancel_left]

/-! ### The decimal digits (R233) -/

/-- The three bytes as numbers: the digits of weight 100, 10 and 1. -/
theorem bcdDigits_numbers (v : Byte) :
    ((bcdDigits v).getD 0 0).toNat = v.toNat / 100 ∧ ((bcdDigits v).getD 1 0).toNat = v.toNat / 10 % 10 ∧
      ((bcdDigits v).getD 2 0).toNat = v.toNat % 10 := by
  have hbyte := v.isLt
  refine ⟨?_, ?_, ?_⟩ <;> simp only [bcdDigits, List.getD_cons_zero, List.getD_cons_succ, BitVec.toNat_ofNat] <;> omega

/-- Where the digits of a byte are written they are read back, as numbers. -/
theorem Memory.read_bcdDigits {m : Memory} {a : Nat} (v : Byte) (h : m.wf = true) (ha : a + 3 ≤ 4096) :
    ((m.writeList a (bcdDigits v)).read a).toNat = v.toNat / 100 ∧
      ((m.writeList a (bcdDigits v)).read (a + 1)).toNat = v.toNat / 10 % 10 ∧
      ((m.writeList a (bcdDigits v)).read (a + 2)).toNat = v.toNat % 10 := by
  have digit : ∀ k < 3, ((m.writeList a (bcdDigits v)).read (a + k)).toNat = ((bcdDigits v).getD k 0).toNat :=
    fun k hk => congrArg BitVec.toNat (Memory.read_writeList_inside h ha hk)
  obtain ⟨hundreds, tens, ones⟩ := bcdDigits_numbers v
  exact ⟨(digit 0 (by decide)).trans hundreds, (digit 1 (by decide)).trans tens, (digit 2 (by decide)).trans ones⟩

/-- Settles O45: the three bytes read back are the digits of `Vx`, and a byte is below 1000. -/
theorem bcdStoresDecimalDigits : Obligations.BcdStoresDecimalDigits := by
  intro x s hm hi
  have hlen : (bcdDigits (s.readV x)).length = 3 := rfl
  obtain ⟨hundreds, tens, ones⟩ := Memory.read_bcdDigits (s.readV x) hm (a := s.i.toNat) (by omega)
  have hbyte := (s.readV x).isLt
  refine ⟨_, execLdBVx_next x s ((inRange_iff _ _).2 (.inr (by omega))), ?_, ?_, ?_, ?_,
    fun a ha => Memory.read_writeList_outside hm (by omega) (by omega), rfl, nextPc_number s, rfl⟩
  all_goals dsimp only; omega

/-! ### The register blocks (R234, R235; D28) -/

/-- Settles O46: the bytes of the block are read back as the registers it was made of. -/
theorem blockStoreWritesRegisters : Obligations.BlockStoreWritesRegisters := by
  intro x s hm hi
  have hlen := s.readBlock_length x
  have hb : s.i.toNat + (s.readBlock x).length ≤ 4096 := by omega
  refine ⟨_, execStRegs_next x s ((inRange_iff _ _).2 (.inr (by omega))), fun k hk => ?_,
    fun a ha => Memory.read_writeList_outside hm hb (by omega), mask12_add s.i (x.val + 1), rfl, nextPc_number s, rfl⟩
  exact (Memory.read_writeList_inside hm hb (by omega)).trans (s.readBlock_getD x k hk)

/-- Settles O47: a register of the block takes the byte of its number, and the others are past its length. -/
theorem blockLoadReadsMemory : Obligations.BlockLoadReadsMemory := by
  intro x s hi
  refine ⟨_, execLdRegs_next x s ((inRange_iff _ _).2 (.inr (by omega))), fun k => ?_, mask12_add s.i (x.val + 1),
    fun _ => rfl, rfl, nextPc_number s, rfl⟩
  refine (s.readV_writeBlock (s.mem.readList s.i.toNat (x.val + 1)) k).trans ?_
  rw [Memory.readList_length]
  by_cases hk : k.val ≤ x.val
  · rw [if_pos (by omega), if_pos hk, Memory.readList_getD _ _ _ _ (by omega)]
  · rw [if_neg (by omega), if_neg hk]

/-- Settles O49: the load reads at `I + k` the byte that the store wrote there. -/
theorem blockStoreThenLoadRestores : Obligations.BlockStoreThenLoadRestores := by
  intro x s t u hm hi ht hmem hui
  obtain ⟨t', ht', hstored, -⟩ := blockStoreWritesRegisters x s hm hi
  obtain rfl : t' = t := Host.Outcome.next.inj (ht'.symm.trans ht)
  obtain ⟨w, hw, hloaded, -⟩ := blockLoadReadsMemory x u (by rwa [hui])
  refine ⟨w, hw, fun k hk => ?_⟩
  rw [hloaded k, if_pos hk, hmem, hui, hstored k hk]

end Sys2Proof.Machine

/-! ## The display family (44_display) -/

namespace Sys2Proof.Machine

/-- Settles O50: the clear buffer, written with `dirty` set. -/
theorem clearClearsEveryPixel : Obligations.ClearClearsEveryPixel := fun s =>
  ⟨_, rfl, Display.pix_clear, rfl, ⟨nextPc_number s, rfl⟩, rfl⟩

/-! ### The sprite in closed form (R271, R272; D14) -/

/-- A pixel belongs to the sprite by its offsets from the origin. -/
theorem spriteCovers_eq (s : State) (x y : Reg) (n : Nibble) (c : Fin 64) (r : Fin 32) :
    spriteCovers s x y n c r =
      (decide (columnOffset (s.readV x) c < 8) && decide (rowOffset (s.readV y) r < n.toNat) &&
        spriteBit (s.mem.read (s.i.toNat + rowOffset (s.readV y) r)) (columnOffset (s.readV x) c)) := rfl

/-- The rows that the loops of `Dxyn` read cover the pixels of the sprite. -/
theorem rowsCover_readList (s : State) (x y : Reg) (n : Nibble) (c : Fin 64) (r : Fin 32) :
    rowsCover (s.readV x) (s.readV y) 0 (s.mem.readList s.i.toNat n.toNat) c r = spriteCovers s x y n c r := by
  rw [spriteCovers_eq, rowsCover, Memory.readList_length]
  by_cases hr : rowOffset (s.readV y) r < n.toNat
  · rw [Nat.sub_zero, Memory.readList_getD _ _ _ _ hr]
    simp [hr]
  · simp [hr]

/-- A sprite of at most 15 rows does not wrap onto itself in 32. -/
theorem sprite_fits (n : Nibble) (s : State) : 0 + (s.mem.readList s.i.toNat n.toNat).length ≤ 32 := by
  have := n.isLt
  rw [Memory.readList_length]
  omega

/-- The drawn buffer is the buffer XORed with the sprite. -/
theorem drawn_pix (x y : Reg) (n : Nibble) (s : State) (c : Fin 64) (r : Fin 32) :
    Display.pix (drawn x y n s).1 c r = (s.disp.pix c r ^^ spriteCovers s x y n c r) := by
  rw [drawn, drawRows_pix _ _ _ _ (sprite_fits n s), rowsCover_readList]

/-- The draw collides where a 1 of the sprite meets a set pixel. -/
theorem drawn_collision (x y : Reg) (n : Nibble) (s : State) :
    (drawn x y n s).2 = true ↔ ∃ c r, spriteCovers s x y n c r = true ∧ s.disp.pix c r = true := by
  simp [drawn, drawRows_collision _ _ _ _ (sprite_fits n s), rowsCover_readList]

theorem flagByte_eq_one (b : Bool) : flagByte b = 1 ↔ b = true := by
  cases b <;> decide

theorem flagByte_zero_or_one (b : Bool) : flagByte b = 0 ∨ flagByte b = 1 := by
  cases b <;> decide

/-- What `Dxyn` in range leaves: the drawn buffer, and the collision in `VF` alone. -/
theorem drw_ends (x y : Reg) {n : Nibble} {s : State} (hrange : n.toNat = 0 ∨ s.i.toNat + n.toNat - 1 ≤ 0xFFF) :
    ∃ t, exec (.drw x y n) s = .next t ∧ t.disp = (drawn x y n s).1 ∧ t.readV VF = flagByte (drawn x y n s).2 ∧
      t.dirty = true ∧ SameRegsBut [VF] s t ∧ CompletesSeq s t ∧
      t = { s with v := t.v, pc := t.pc, disp := t.disp, dirty := t.dirty, status := t.status } :=
  ⟨_, execDrw_next x y n s ((inRange_iff _ _).2 (by omega)), rfl, s.readV_writeV_self VF _, rfl,
    fun q hq => (s.readV_writeV VF q _).trans (if_neg fun h => hq (by simp [h])), ⟨nextPc_number s, rfl⟩, rfl⟩

/-- Settles O51: `drw_ends`, with the drawn buffer and the collision in closed form. -/
theorem drawXorsTheSprite : Obligations.DrawXorsTheSprite := by
  intro x y n s hrange
  obtain ⟨t, ht, hdisp, hflag, hframe⟩ := drw_ends x y hrange
  refine ⟨t, ht, ?_, ?_, ?_, hframe⟩
  · rw [hdisp]; exact drawn_pix x y n s
  · rw [hflag, flagByte_eq_one]; exact drawn_collision x y n s
  · rw [hflag]; exact flagByte_zero_or_one _

/-! ### Two draws in a row (R271, R273; D14) -/

/-- The sprite is read off its two coordinates, `I` and memory alone. -/
theorem spriteCovers_congr {s t : State} {x y : Reg} (hx : t.readV x = s.readV x) (hy : t.readV y = s.readV y)
    (hi : t.i = s.i) (hm : t.mem = s.mem) (n : Nibble) : spriteCovers t x y n = spriteCovers s x y n := by
  funext c r
  rw [spriteCovers_eq, spriteCovers_eq, hx, hy, hi, hm]

/-- Settles O52: the first draw leaves the sprite as it is, an XOR undoes itself, and what the second draw meets set is
what the first found clear. -/
theorem drawingTwiceErases : Obligations.DrawingTwiceErases := by
  intro x y n s t w hx hy hrange ht hw
  obtain ⟨t', ht', hpix, -, -, -, hregs, -, hframe⟩ := drawXorsTheSprite x y n s hrange
  obtain rfl : t' = t := Host.Outcome.next.inj (ht'.symm.trans ht)
  have hi : t'.i = s.i := by rw [hframe]
  have hmem : t'.mem = s.mem := by rw [hframe]
  obtain ⟨w', hw', hpix', hflag, -⟩ := drawXorsTheSprite x y n t' (by rwa [hi])
  obtain rfl : w' = w := Host.Outcome.next.inj (hw'.symm.trans hw)
  have hsprite : spriteCovers t' x y n = spriteCovers s x y n :=
    spriteCovers_congr (hregs x (by simpa using hx)) (hregs y (by simpa using hy)) hi hmem n
  rw [hsprite] at hpix' hflag
  refine ⟨Display.ext_pix fun c r => ?_, hflag.trans (exists₂_congr fun c r => and_congr_right fun hc => ?_)⟩
  · rw [hpix', hpix, Bool.xor_assoc, Bool.xor_self, Bool.xor_false]
  · rw [hpix, hc, Bool.xor_true, Bool.not_eq_true']

end Sys2Proof.Machine

/-! ## The timer and input family (45_timers_input) -/

namespace Sys2Proof.Machine

/-! ### The moves between `Vx` and the timers (R300 to R302) -/

theorem ok_state_ne_fault : Status.ok.state ≠ .fault := by decide

/-- An instruction that ends with the update `seq` leaves the next pc, masked, and no fault (40_dispatch R128, R131). -/
theorem completesSeq_pc_no_fault {s t : State} (h : CompletesSeq s t) :
    t.pc = mask12 (s.pc + 2) ∧ t.status.state ≠ .fault := by
  obtain ⟨hpc, hok⟩ := h
  exact ⟨BitVec.eq_of_toNat_eq (hpc.trans (nextPc_number s).symm), hok ▸ ok_state_ne_fault⟩

/-- Settles O53: the rows of the three words, a load of `DT` into `Vx`, and the two timers written with `Vx`. -/
theorem timerMoves : Obligations.TimerMoves := by
  refine ⟨fun op hop => decode_of_row (r := ⟨.ldVxDt, 0xF007, 0xF0FF⟩) (by decide) hop rfl,
    fun op hop => decode_of_row (r := ⟨.ldDtVx, 0xF015, 0xF0FF⟩) (by decide) hop rfl,
    fun op hop => decode_of_row (r := ⟨.ldStVx, 0xF018, 0xF0FF⟩) (by decide) hop rfl,
    fun x s => ⟨?_, ?_, ?_⟩⟩
  · obtain ⟨t, ht, hx, hsame, honly, hseq⟩ := loadResult_ends x s.dt s
    obtain ⟨hpc, hrun⟩ := completesSeq_pc_no_fault hseq
    exact ⟨t, ht, hx, hpc, hsame, honly, hrun⟩
  · exact ⟨_, exec_next (.ldDtVx x) s, rfl, rfl, rfl, ok_state_ne_fault⟩
  · exact ⟨_, exec_next (.ldStVx x) s, rfl, rfl, rfl, ok_state_ne_fault⟩

/-! ### The skips on a key (R303, R304, R306) -/

/-- A register that holds the number of a key names that key. -/
theorem keyIndex_of_number {s : State} {x k : Reg} (h : (s.readV x).toNat = k.val) : keyIndex s x = .ok k := by
  rcases keyIndex_cases s x with ⟨j, hj, he⟩ | ⟨hj, -⟩
  · rw [he, Fin.ext (hj.symm.trans h)]
  · omega

/-- With `Vx` naming a key, `Ex9E` is the skip on that key pressed. -/
theorem skp_of_key {s : State} {x k : Reg} (h : (s.readV x).toNat = k.val) :
    exec (.skp x) s = complete (s.skipIf (s.keyDown k)) := by
  rw [exec, execSkp, keyIndex_of_number h]; rfl

/-- With `Vx` naming a key, `ExA1` is the skip on that key not pressed. -/
theorem sknp_of_key {s : State} {x k : Reg} (h : (s.readV x).toNat = k.val) :
    exec (.sknp x) s = complete (s.skipIf (!s.keyDown k)) := by
  rw [exec, execSknp, keyIndex_of_number h]; rfl

/-- Settles O54: with a key named, `skipIf_ends` at the two tests; above 0xF, the status that both stop with. -/
theorem keySkips : Obligations.KeySkips := by
  refine fun x s => ⟨fun k hk => ⟨?_, ?_⟩, fun hx => ⟨?_, ?_⟩⟩
  · rw [skp_of_key hk]; exact skipIf_ends Iff.rfl s
  · rw [sknp_of_key hk]; exact skipIf_ends (Bool.not_eq_true' _).to_iff s
  · exact ⟨_, exec_next .., answer_of_halt hardware (.skp x) (if_pos hx)⟩
  · exact ⟨_, exec_next .., answer_of_halt hardware (.sknp x) (if_pos hx)⟩

end Sys2Proof.Machine

/-! ## The exceptions family (60_exceptions) -/

namespace Sys2Proof.Machine

/-! ### The causes each instruction can raise (R332, R333) -/

/-- An instruction that ends in FAULT has stopped with the status it leaves. -/
theorem haltStatus_of_answer_fault {p : Params} {i : Instr} {s : State} (h : (answer p i s).status.state = .fault) :
    haltStatus p i s = some (answer p i s).status := by
  rcases answer_cases p i s with ⟨st, hh, he⟩ | ⟨-, he⟩
  · rw [he, hh]
  · rw [he] at h; cases h

/-- An indexed access stops for a byte past 0xFFF alone, and there with `MemoryOutOfRange`. -/
theorem indexHalt_eq_some {s : State} {n : Nat} {st : Status} (h : indexHalt s n = some st) :
    n ≠ 0 ∧ 4096 < s.i.toNat + n ∧ st.cause = .memoryOutOfRange := by
  obtain ⟨hout, ⟨⟩⟩ := Option.ite_none_left_eq_some.1 h
  obtain ⟨hn, htop⟩ := (inRange_false_iff ..).1 (Bool.eq_false_iff.2 hout)
  exact ⟨hn, htop, rfl⟩

/-- Settles O20: what ends in FAULT has stopped, and only the rows of `haltStatus` stop, each on its own condition. -/
theorem causesByInstruction : Obligations.CausesByInstruction := by
  intro i s t h hf
  obtain rfl := exec_eq_next.1 h
  have hh := haltStatus_of_answer_fault hf
  generalize (answer hardware i s).status = st at hf hh ⊢
  cases i with
  | ret =>
    obtain ⟨hs, ⟨⟩⟩ := Option.ite_none_right_eq_some.1 hh
    exact .inl ⟨rfl, hs, rfl⟩
  | call nnn =>
    obtain ⟨hs, ⟨⟩⟩ := Option.ite_none_right_eq_some.1 hh
    exact .inr (.inl ⟨nnn, rfl, hs, rfl⟩)
  | drw x y n =>
    obtain ⟨hn, htop, hc⟩ := indexHalt_eq_some hh
    exact .inr (.inr (.inl ⟨x, y, n, rfl, by omega, by omega, hc⟩))
  | ldBVx x =>
    obtain ⟨-, htop, hc⟩ := indexHalt_eq_some hh
    exact .inr (.inr (.inr (.inl ⟨x, rfl, by omega, hc⟩)))
  | stRegs x | ldRegs x =>
    obtain ⟨-, htop, hc⟩ := indexHalt_eq_some hh
    rw [blockSize] at htop
    exact .inr (.inr (.inr (.inr (.inl ⟨x, by simp, by omega, hc⟩))))
  | skp x | sknp x =>
    obtain ⟨hx, ⟨⟩⟩ := Option.ite_none_right_eq_some.1 hh
    exact .inr (.inr (.inr (.inr (.inr ⟨x, by simp, hx, rfl, readWide_number s x⟩))))
  | ldVxK x =>
    obtain ⟨-, ⟨⟩⟩ := Option.ite_none_right_eq_some.1 hh
    cases hf
  | _ => cases hh

/-! ### Every step answers a next state (R330, R331) -/

/-- Around an execute phase that always answers a next state, so does the step: it stays halted, raises, executes or
reports an unknown opcode (40_dispatch R121). -/
theorem cycle_answers_next {execute : Instr → State → Result} (h : ∀ i s, ∃ t, execute i s = .next t) (s : State) :
    ∃ t, cycle execute s = .next t := by
  unfold cycle
  split
  · exact ⟨s, rfl⟩
  · split
    · exact ⟨_, rfl⟩
    · split
      · exact h _ _
      · exact ⟨_, rfl⟩

theorem exec_answers_next (i : Instr) (s : State) : ∃ t, exec i s = .next t := ⟨_, exec_next i s⟩

/-- Settles O12: every instruction answers a next state, and so does the step around them. -/
theorem everyStepAnswersNext : Obligations.EveryStepAnswersNext :=
  ⟨cycle_answers_next exec_answers_next, exec_answers_next⟩

end Sys2Proof.Machine

/-! ## The reset family (70_reset_and_hazards) -/

namespace Sys2Proof.Machine

/-! ### The loader over the reset state (R371, R373) -/

/-- A ROM fits exactly up to the 3584 bytes from 0x200 to the end of memory (70_reset R373). -/
theorem romWellFormed_iff {rom : List Byte} : romWellFormed rom = true ↔ rom.length ≤ 3584 :=
  decide_eq_true_iff

/-- An oversized ROM is a load error, under any parameters (D21). -/
theorem boot_oversized (p : Params) {rom : List Byte} (u : State) (h : 3584 < rom.length) :
    boot p rom u = .fault (.loadError rom.length) :=
  if_neg (mt romWellFormed_iff.1 (Nat.not_le.2 h))

/-- On this hardware a ROM that fits is written into the reset state, from any state before it. -/
theorem boot_hardware_fits {rom : List Byte} (u : State) (h : rom.length ≤ 3584) :
    boot hardware rom u =
      .next { State.reset with rndIn := u.rndIn, rndCount := u.rndCount,
                               mem := State.reset.mem.writeList 0x200 rom } := by
  rw [boot, if_pos (romWellFormed_iff.2 h), resetMachine_hardware]; rfl

/-- Memories that read alike over a range give the same list of bytes there. -/
theorem Memory.readList_congr {m m' : Memory} {base n : Nat}
    (h : ∀ a : Nat, base ≤ a → a < base + n → m.read a = m'.read a) : m.readList base n = m'.readList base n := by
  induction n generalizing base with
  | zero => rfl
  | succ n ih =>
    rw [Memory.readList, Memory.readList, h base (Nat.le_refl base) (by omega),
      ih fun a hlow hhigh => h a (by omega) (by omega)]

/-- Settles O57: the bytes of a ROM that fits are read back at 0x200, around them memory and every other element are those
of the reset state. -/
theorem bootPlacesTheRom : Obligations.BootPlacesTheRom := by
  refine ⟨fun rom u hrom => ⟨_, boot_hardware_fits u hrom, ?_⟩, fun rom u => boot_oversized hardware u⟩
  obtain ⟨hpc, -, hstatus, hglyph, hzero, hregs, -, -, -, hstack, -⟩ := resetValues
  have hfit : 0x200 + rom.length ≤ 4096 := by omega
  have hwf : State.reset.mem.wf = true := rfl
  have outside {a : Nat} (ha : a < 0x200 ∨ 0x200 + rom.length ≤ a) := Memory.read_writeList_outside hwf hfit ha
  refine ⟨hpc, fun k hk => Memory.read_writeList_inside hwf hfit hk, ?_, fun a hfont ha => ?_, hstack, rfl, hstatus, hregs⟩
  · exact (Memory.readList_congr fun a _ ha => outside (by omega)).trans hglyph
  · exact (outside ha).trans (hzero a hfont)

end Sys2Proof.Machine
